-- ==== Sys2Proof/Word.lean ====
section
/-! DEFINITION. The machine's word types (spec/00_scope.md R9, R10; spec/20_memory.md R60). -/

namespace Sys2Proof

/-- One byte: what one bus call moves (R10, R65). -/
abbrev Byte := BitVec 8

/-- One 32-bit word: what one host access moves (R60). -/
abbrev Word := BitVec 32

/-- HADDR, a word address of the host register port, 0..15 (R22, R60). -/
abbrev HAddr := BitVec 4

/-- A 16-bit raw measurand (R160). -/
abbrev Raw := BitVec 16

end Sys2Proof
end

