-- ==== Sys2Proof/Syntax.lean ====
section
/-! DEFINITION. The eight commands (spec/30_encoding.md R83), one constructor per row of spec/opcode_table.json. -/

namespace Sys2Proof

/-- A command word's instruction. Every command carries CMD[15:8] as `imm8`: acceptance latches it whatever the opcode
(R82, R100), and UREG.WR alone uses it (log entry 8). -/
inductive Instr where
  /-- MEAS.T.HOLD, 0xE3 (R167). -/
  | measTHold (imm8 : Byte)
  /-- MEAS.RH.HOLD, 0xE5 (R166). -/
  | measRhHold (imm8 : Byte)
  /-- UREG.WR v, 0xE6 (R143). -/
  | uregWr (imm8 : Byte)
  /-- UREG.RD, 0xE7 (R140). -/
  | uregRd (imm8 : Byte)
  /-- MEAS.T, 0xF3 (R151). -/
  | measT (imm8 : Byte)
  /-- MEAS.RH, 0xF5 (R150). -/
  | measRh (imm8 : Byte)
  /-- SN.RD, 0xFA (R180). -/
  | snRd (imm8 : Byte)
  /-- SRST, 0xFE (R190). -/
  | srst (imm8 : Byte)
  deriving DecidableEq, Repr

end Sys2Proof
end

