-- ==== Sys2Proof/WellFormed.lean ====
section
/-! DEFINITION. Which commands an assembler emits (spec/30_encoding.md R86, R91). -/

namespace Sys2Proof

/-- "with imm8 = 0 for every operation but UREG.WR" (R86); "An assembler ... refuses an operand on any other mnemonic"
(R91). The controller itself also runs a command that is not well-formed: a non-zero imm8 is ignored (R85). -/
def Instr.wf : Instr → Bool
  | .measTHold imm8 => imm8 == 0
  | .measRhHold imm8 => imm8 == 0
  | .uregWr _ => true
  | .uregRd imm8 => imm8 == 0
  | .measT imm8 => imm8 == 0
  | .measRh imm8 => imm8 == 0
  | .snRd imm8 => imm8 == 0
  | .srst imm8 => imm8 == 0

end Sys2Proof
end

