-- ==== Sys2Proof/Decode.lean ====
section
/-! DEFINITION. The command word: decoder and encoder (spec/30_encoding.md R80-R86). -/

namespace Sys2Proof

/-- `dec(w)` (R86): a legal operation, or illegal, which names the unassigned opcode (R85). -/
inductive Decoded where
  | legal (i : Instr)
  | illegal (opcode : Byte)
  deriving DecidableEq, Repr

/-- `opcode` = CMD[7:0] (R81). -/
def opcodeField (w : Word) : Byte := w.extractLsb' 0 8

/-- `imm8` = CMD[15:8] (R81, R82). -/
def imm8Field (w : Word) : Byte := w.extractLsb' 8 8

/-- The opcode map of R83: "A decoder selects by `CMD[7:0]` alone". -/
def decodeFields (opcode imm8 : Byte) : Decoded :=
  match opcode with
  | 0xE3#8 => .legal (.measTHold imm8)
  | 0xE5#8 => .legal (.measRhHold imm8)
  | 0xE6#8 => .legal (.uregWr imm8)
  | 0xE7#8 => .legal (.uregRd imm8)
  | 0xF3#8 => .legal (.measT imm8)
  | 0xF5#8 => .legal (.measRh imm8)
  | 0xFA#8 => .legal (.snRd imm8)
  | 0xFE#8 => .legal (.srst imm8)
  | _ => .illegal opcode

/-- `dec` (R86), total on all 2^32 words; CMD[31:16] is ignored (R81). -/
def decode (w : Word) : Decoded := decodeFields (opcodeField w) (imm8Field w)

/-- The `opcode` column of R83. -/
def opcodeOf : Instr → Byte
  | .measTHold _ => 0xE3#8
  | .measRhHold _ => 0xE5#8
  | .uregWr _ => 0xE6#8
  | .uregRd _ => 0xE7#8
  | .measT _ => 0xF3#8
  | .measRh _ => 0xF5#8
  | .snRd _ => 0xFA#8
  | .srst _ => 0xFE#8

/-- The operand byte of a command (R82). -/
def imm8Of : Instr → Byte
  | .measTHold imm8 => imm8
  | .measRhHold imm8 => imm8
  | .uregWr imm8 => imm8
  | .uregRd imm8 => imm8
  | .measT imm8 => imm8
  | .measRh imm8 => imm8
  | .snRd imm8 => imm8
  | .srst imm8 => imm8

/-- `enc(op, imm8) = zext_32(imm8) << 8 | opcode(op)` (R86). -/
def encode (i : Instr) : Word :=
  ((imm8Of i).setWidth 32 <<< 8) ||| (opcodeOf i).setWidth 32

/-- The command word whose low `nbits` bits are `w` and whose other bits are 0. The port moves whole words, so no byte
order arises (R63; log entry 10). -/
def tableWord (nbits w : Nat) : Word := BitVec.ofNat 32 (w % 2 ^ nbits)

/-- What `decode` reads from an instruction whose bits are `w`. -/
def decodeTableWord (nbits w : Nat) : Option Instr :=
  match decode (tableWord nbits w) with
  | .legal i => some i
  | .illegal _ => none

end Sys2Proof
end

