-- ==== Sys2Proof/Config.lean ====
section
/-! DEFINITION. What an implementation fixes (spec/00_scope.md R9) and the free values: the answers of the bus agent
(spec/40_sequencer.md R108), the values of registers never written (R44) and the open times. -/

namespace Sys2Proof

/-- CRC_ORDER: the order in which the validator feeds received bytes to the CRC (R9, R131). -/
inductive CrcOrder where
  | wire
  | reverseWire
  deriving DecidableEq, Repr

/-- TIMEOUT_READS: whether the data reads run after a polling timeout (R9, R158). -/
inductive TimeoutReads where
  | continue
  | skip
  deriving DecidableEq, Repr

/-- The four flags of the Error Code (R26, R201). -/
inductive ErrFlag where
  | ack
  | timeout
  | crc
  | unit
  deriving DecidableEq, Repr

/-- The parameters of R9 on which a value depends. DESIGN CHOICE (log entry 4): they stand in the state as plain data
that no step changes, so that a claim over all states is a claim over all their values. -/
structure Params where
  crcOrder     : CrcOrder
  timeoutReads : TimeoutReads
  collFlag     : ErrFlag
  deriving DecidableEq, Repr

/-- The defaults of R9: WIRE, CONTINUE, ERR_ACK. -/
def Params.default : Params :=
  { crcOrder := .wire, timeoutReads := .continue, collFlag := .ack }

/-- DEDUCED (log entry 5): no rule sets ERR_UNIT (R26), so COLL_FLAG is not UNIT. -/
def Params.wf (p : Params) : Bool := p.collFlag != .unit

/-- The answer to `BusWrite` (R107). -/
inductive WriteResp where
  | ack
  | nack
  | coll
  deriving DecidableEq, Repr, Inhabited

/-- What the bus agent drives when it answers a call: a `BusWrite` takes `resp`, a `BusRead` takes `byte`, `BusBegin`
and `BusEnd` take neither (R105-R109; log entry 15). -/
structure BusAnswer where
  resp : WriteResp
  byte : Byte
  deriving DecidableEq, Repr, Inhabited

/-- The waits a listing names (R112). -/
inductive DelayName where
  | pollInterval
  | settleDelay
  deriving DecidableEq, Repr

namespace Config

/-- FREE VALUE (log entry 3): the bus agent's `n`-th unscripted answer, "a draw the controller does not constrain"
(R108). -/
opaque freeAnswer : Nat → BusAnswer

/-- FREE VALUE (log entry 9): the byte a host program computes with where the register it read holds no value (R44). -/
opaque freeByte : Nat → Byte

/-- OPEN (R9, log entry 6): the lengths of the waits. No value of the machine depends on them (R232). -/
opaque delayTime : DelayName → Nat

/-- OPEN (R9, R222, log entry 6): the sensor's start-up time. The controller does not wait for it. -/
opaque powerupDelay : Nat

end Config

end Sys2Proof
end

