-- ==== Sys2Proof/Machine/State.lean ====
section
/-! DEFINITION. The controller's state (spec/10_state.md R20-R43), the plain data of the agents around it
(spec/20_memory.md R66), and the reasons a step can stop. -/

namespace Sys2Proof.Machine

/-- The eight operations (R38, R83). -/
inductive Op where
  | measTHold
  | measRhHold
  | uregWr
  | uregRd
  | measT
  | measRh
  | snRd
  | srst
  deriving DecidableEq, Repr

/-- The sequencer state `st` (R38), the controller's program counter: `run op s` is RUN(op, s). -/
inductive Seq where
  | idle
  | run (op : Op) (s : Nat)
  deriving DecidableEq, Repr

/-- The acknowledge policy of `BusRead` (R109). -/
inductive Policy where
  | ack
  | nack
  deriving DecidableEq, Repr

/-- What `req` holds (R40, R104): a bus primitive call of R105-R109, or a `Delay` of R112. -/
inductive Call where
  | busBegin
  | busEnd
  | write (b : Byte)
  | read (p : Policy)
  | delay (d : DelayName)
  deriving DecidableEq, Repr

/-- One event of the bus trace (R117). -/
inductive BusEvent where
  | busBegin
  | busEnd
  | write (b : Byte) (r : WriteResp)
  | read (p : Policy) (b : Byte)
  | delay (d : DelayName)
  deriving DecidableEq, Repr

/-- One line of a host program (R90, R92; log entry 14). Each step of the host is one access (R66). -/
inductive HostLine where
  /-- `hw REG, imm32`: `MemWrite(a, 4, v)` (R90). -/
  | hw (a : HAddr) (v : Word)
  /-- `hr REG`: `MemRead(a, 4)` (R90). -/
  | hr (a : HAddr)
  /-- `wait_idle`: read STATUS, stay on this line while BUSY reads 1 (R92). -/
  | waitIdle
  /-- The line `hr UREG -> u; if e = 0 then ...` of `UREG.RMW clr, set`, with `e` the value the line before it read
  (R92). -/
  | rmwUreg (clr set : Byte)
  deriving DecidableEq, Repr

/-- What one host read gave the host program (R117). There is no value where the register's valid bit was 0: the register
"holds its reset value 0, which is not a measurement" (R44), the host program is in error, and what it read is no value,
not the number 0 (spec/93_implementation_defined.md I15; log entry 9). -/
structure HostRead where
  addr  : HAddr
  value : Option Word
  deriving DecidableEq, Repr

/-- Which agent takes a step (R66), or controller reset applied by the platform (R220). -/
inductive Move where
  | host
  | sequencer
  | bus (a : BusAnswer)
  | timer
  | reset
  deriving DecidableEq, Repr

/-- Whether pending calls and delays are answered once the listed moves are used up: `fair` is the assumption of R108 and
R112 that each is, eventually; `silent` is the run in which none is any more, which is stuck at the first one (I9, I10,
R229, R233; log entry 16). -/
inductive Fairness where
  | fair
  | silent
  deriving DecidableEq, Repr

/-- Eight byte registers: SN[0..7] (R39) and sn_t[0..7] (R40). -/
structure SnBytes where
  b0 : Byte
  b1 : Byte
  b2 : Byte
  b3 : Byte
  b4 : Byte
  b5 : Byte
  b6 : Byte
  b7 : Byte
  deriving DecidableEq, Repr

/-- All eight bytes 0x00. -/
def SnBytes.zero : SnBytes :=
  { b0 := 0, b1 := 0, b2 := 0, b3 := 0, b4 := 0, b5 := 0, b6 := 0, b7 := 0 }

/-- Why a step stops. The controller has no fault of its own (R200). -/
inductive Fault where
  /-- Raised by the shared listing step when RUN(op, s) has an `s` outside op's listing. SAFE: no run reaches it, since
  "every listing is finite" and `s` never leaves it (R38); log entry 11. -/
  | offListing
  deriving DecidableEq, Repr

/-- Why an instruction has no meaning. -/
inductive Refusal where
  /-- Raised by an arm of `exec` whose instruction has no meaning yet. SAFE: nothing can be proved of a refused step. No
  arm of this model answers it. -/
  | notModelled (mnemonic : String)
  deriving DecidableEq, Repr

/-- The controller's state, then the model's own fields. Registers are held at the width of their live bits; their
reserved bits read 0 (log entry 18). There is no memory array (R20). -/
structure State where
  /-- STATUS.ILL (R24). -/
  ill : Bool
  /-- STATUS.OVR (R24). -/
  ovr : Bool
  /-- STATUS.RH_V (R24). -/
  rhV : Bool
  /-- STATUS.T_V (R24). -/
  tV : Bool
  /-- STATUS.UREG_V (R24). -/
  uregV : Bool
  /-- STATUS.SN_V (R24). -/
  snV : Bool
  /-- ERR[3:0] (R26). -/
  err : BitVec 4
  /-- LAST_OP[7:0] (R27). -/
  lastOp : Byte
  /-- RH_RAW[15:0] (R28). -/
  rhRaw : Raw
  /-- RH_VAL (R29). -/
  rhVal : Word
  /-- T_RAW[15:0] (R30). -/
  tRaw : Raw
  /-- T_VAL (R31). -/
  tVal : Word
  /-- UREG[7:0] (R32). -/
  ureg : Byte
  /-- SN[0..7] (R39), published as SN_LO and SN_HI (R33). -/
  sn : SnBytes
  /-- ATTEMPTS[7:0] (R34). -/
  attempts : Byte
  /-- The sequencer state `st` (R38). -/
  seq : Seq
  /-- The error accumulator (R40). -/
  acc : BitVec 4
  /-- Latched CMD[15:8] (R40). -/
  opnd : Byte
  /-- Polling attempts made so far (R40). -/
  k : Byte
  /-- The last polling attempt was acknowledged (R40). -/
  ready : Bool
  /-- First received data byte (R40). -/
  d0 : Byte
  /-- Second received data byte (R40). -/
  d1 : Byte
  /-- Received checksum byte (R40). -/
  c : Byte
  /-- Serial-number bytes being assembled (R40). -/
  snT : SnBytes
  /-- The call issued and not yet answered (R40). -/
  req : Option Call
  /-- The parameters of R9; no step changes them (log entry 4). -/
  params : Params
  /-- The agents that move next, first first (R66; log entry 1). -/
  moves : List Move
  /-- What becomes of a pending call where no move is listed (R108, R112, R229; log entry 16). -/
  agents : Fairness
  /-- The host program's lines not yet executed (R90; log entry 14). -/
  prog : List HostLine
  /-- The answer the bus agent gives in the step that receives it (R108; log entry 3). -/
  busIn : BusAnswer
  /-- How many free values have been drawn (log entries 3 and 9). -/
  draws : Nat
  /-- The bus trace, first event first (R117; log entry 13). -/
  trace : List BusEvent
  /-- What the host's reads returned, first first (R117; log entry 13). -/
  reads : List HostRead
  deriving DecidableEq, Repr

/-- The machine after controller reset (R43). The model's own fields start empty, the parameters at R9's defaults. -/
def State.reset : State :=
  { ill := false, ovr := false, rhV := false, tV := false, uregV := false, snV := false,
    err := 0, lastOp := 0, rhRaw := 0, rhVal := 0, tRaw := 0, tVal := 0, ureg := 0,
    sn := SnBytes.zero, attempts := 0, seq := .idle, acc := 0, opnd := 0, k := 0,
    ready := false, d0 := 0, d1 := 0, c := 0, snT := SnBytes.zero, req := none,
    params := Params.default, moves := [], agents := .fair, prog := [],
    busIn := { resp := .ack, byte := 0 }, draws := 0, trace := [], reads := [] }

end Sys2Proof.Machine
end

