-- ==== Sys2Proof/Machine/Operands.lean ====
section
/-! DEFINITION. The constants of the sensor's protocol (spec/00_scope.md R8, spec/30_encoding.md R88), the operand of a
command (R82), and the bytes a listing sends or stores. -/

namespace Sys2Proof.Machine

/-- Sensor write address byte (R8). -/
def sensorWaddr : Byte := 0x80
/-- Sensor read address byte (R8). -/
def sensorRaddr : Byte := 0x81
/-- CMD_TRIG_T_HOLD (R8). -/
def cmdTrigTHold : Byte := 0xE3
/-- CMD_TRIG_RH_HOLD (R8). -/
def cmdTrigRhHold : Byte := 0xE5
/-- CMD_TRIG_T_POLL (R8). -/
def cmdTrigTPoll : Byte := 0xF3
/-- CMD_TRIG_RH_POLL (R8). -/
def cmdTrigRhPoll : Byte := 0xF5
/-- CMD_WRITE_REG (R8). -/
def cmdWriteReg : Byte := 0xE6
/-- CMD_READ_REG (R8). -/
def cmdReadReg : Byte := 0xE7
/-- CMD_SOFT_RESET (R8). -/
def cmdSoftReset : Byte := 0xFE
/-- CMD_SN1 (R8). -/
def cmdSn1 : Byte := 0xFA
/-- ADDR_SN1 (R8). -/
def addrSn1 : Byte := 0x0F
/-- CMD_SN2 (R8). -/
def cmdSn2 : Byte := 0xFC
/-- ADDR_SN2 (R8). -/
def addrSn2 : Byte := 0xC9
/-- POLL_BUDGET, address-write attempts (R8). -/
def pollBudget : Nat := 200
/-- STATUS_MASK: the low 2 bits of the raw measurand are status (R8, R162). -/
def statusMask : Raw := 0xFFFC

/-- HADDR of each register of the host register map (R22). -/
def haddrCmd : HAddr := 0
/-- HADDR of STATUS (R22). -/
def haddrStatus : HAddr := 1
/-- HADDR of ERR (R22). -/
def haddrErr : HAddr := 2
/-- HADDR of LAST_OP (R22). -/
def haddrLastOp : HAddr := 3
/-- HADDR of RH_RAW (R22). -/
def haddrRhRaw : HAddr := 4
/-- HADDR of RH_VAL (R22). -/
def haddrRhVal : HAddr := 5
/-- HADDR of T_RAW (R22). -/
def haddrTRaw : HAddr := 6
/-- HADDR of T_VAL (R22). -/
def haddrTVal : HAddr := 7
/-- HADDR of UREG (R22). -/
def haddrUreg : HAddr := 8
/-- HADDR of SN_LO (R22). -/
def haddrSnLo : HAddr := 9
/-- HADDR of SN_HI (R22). -/
def haddrSnHi : HAddr := 10
/-- HADDR of ATTEMPTS (R22). -/
def haddrAttempts : HAddr := 11

/-- The operation a command selects (R83). -/
def opOf : Instr → Op
  | .measTHold _ => .measTHold
  | .measRhHold _ => .measRhHold
  | .uregWr _ => .uregWr
  | .uregRd _ => .uregRd
  | .measT _ => .measT
  | .measRh _ => .measRh
  | .snRd _ => .snRd
  | .srst _ => .srst

/-- The command that selects operation `op` with operand byte `imm8` (R83). -/
def instrOf (op : Op) (imm8 : Byte) : Instr :=
  match op with
  | .measTHold => .measTHold imm8
  | .measRhHold => .measRhHold imm8
  | .uregWr => .uregWr imm8
  | .uregRd => .uregRd imm8
  | .measT => .measT imm8
  | .measRh => .measRh imm8
  | .snRd => .snRd imm8
  | .srst => .srst imm8

/-- The byte a `BusWriteAcc` sends: a constant of the listing, or the latched operand (R82, R143). -/
inductive SendByte where
  | const (b : Byte)
  | opnd
  deriving DecidableEq, Repr

/-- The value of a sent byte. -/
def SendByte.value (s : State) : SendByte → Byte
  | .const b => b
  | .opnd => s.opnd

/-- Where a `BusRead` puts its byte: a working register of R40, or nowhere (R181). -/
inductive ReadDest where
  | d0
  | d1
  | c
  | snT (i : Fin 8)
  | discard
  deriving DecidableEq, Repr

/-- `v[i] <- b` for the byte registers SN and sn_t. -/
def SnBytes.set (v : SnBytes) (i : Fin 8) (b : Byte) : SnBytes :=
  match i with
  | 0 => { v with b0 := b }
  | 1 => { v with b1 := b }
  | 2 => { v with b2 := b }
  | 3 => { v with b3 := b }
  | 4 => { v with b4 := b }
  | 5 => { v with b5 := b }
  | 6 => { v with b6 := b }
  | 7 => { v with b7 := b }

/-- `v[i]`. -/
def SnBytes.get (v : SnBytes) (i : Fin 8) : Byte :=
  match i with
  | 0 => v.b0
  | 1 => v.b1
  | 2 => v.b2
  | 3 => v.b3
  | 4 => v.b4
  | 5 => v.b5
  | 6 => v.b6
  | 7 => v.b7

/-- SN_LO = SN[3]:SN[2]:SN[1]:SN[0] (R33). -/
def SnBytes.lo (v : SnBytes) : Word := v.b3 ++ v.b2 ++ v.b1 ++ v.b0

/-- SN_HI = SN[7]:SN[6]:SN[5]:SN[4] (R33). -/
def SnBytes.hi (v : SnBytes) : Word := v.b7 ++ v.b6 ++ v.b5 ++ v.b4

/-- Store a received byte. -/
def State.store (dst : ReadDest) (b : Byte) (s : State) : State :=
  match dst with
  | .d0 => { s with d0 := b }
  | .d1 => { s with d1 := b }
  | .c => { s with c := b }
  | .snT i => { s with snT := s.snT.set i b }
  | .discard => s

end Sys2Proof.Machine
end

