-- ==== Sys2Proof/Machine/Convert.lean ====
section
/-! DEFINITION. The raw-to-physical converter (spec/43_measurement.md R160-R165): exact integer numerators. -/

namespace Sys2Proof.Machine

/-- The Measurement Kind (R152). -/
inductive Kind where
  | rh
  | t
  deriving DecidableEq, Repr

/-- `raw = d0 : d1` (R160). -/
def rawOf (d0 d1 : Byte) : Raw := d0 ++ d1

/-- `v = raw & 0xFFFC` (R162). -/
def maskStatus (raw : Raw) : Raw := raw &&& statusMask

/-- `N_RH = 125 * v - 393216` (R163). -/
def humidityNumerator (v : Raw) : Int := 125 * (v.toNat : Int) - 393216

/-- `N_T = 17572 * v - 307036160` (R164). -/
def temperatureNumerator (v : Raw) : Int := 17572 * (v.toNat : Int) - 307036160

/-- `conv(kind, v)`: the numerator as a 32-bit two's-complement integer (R152, R163, R164); no range check (R165). -/
def convert (kind : Kind) (v : Raw) : Word :=
  match kind with
  | .rh => BitVec.ofInt 32 (humidityNumerator v)
  | .t => BitVec.ofInt 32 (temperatureNumerator v)

end Sys2Proof.Machine
end

