-- ==== Sys2Proof/Machine/Crc.lean ====
section
/-! DEFINITION. The CRC-8 validator (spec/41_crc_validator.md R130-R133), a combinational unit without state. -/

namespace Sys2Proof.Machine

/-- CRC_POLY, x^8 + x^5 + x^4 + 1 (R8). -/
def crcPoly : BitVec 9 := 0x131

/-- One of the eight shifts of R130: `if r[7] = 1 then r <- ((r << 1) ^ 0x131)[7:0] else r <- (r << 1)[7:0]`, the shift
taken at 9 bits. -/
def crcShift (r : Byte) : Byte :=
  if r.getLsbD 7 then ((r.setWidth 9 <<< 1) ^^^ crcPoly).setWidth 8
  else (r.setWidth 9 <<< 1).setWidth 8

/-- `crcShift` repeated `n` times. -/
def crcShifts : Nat → Byte → Byte
  | 0, r => r
  | n + 1, r => crcShifts n (crcShift r)

/-- One byte of R130: `r <- r ^ p_i`, then eight shifts. -/
def crcByte (r p : Byte) : Byte := crcShifts 8 (r ^^^ p)

/-- `crc8(P)`, bytes in list order, initial register 0, no final XOR (R130). -/
def crc8 (bytes : List Byte) : Byte := bytes.foldl crcByte 0

/-- `crc_in(wire)` (R131). -/
def crcIn (order : CrcOrder) (wire : List Byte) : Byte :=
  match order with
  | .wire => crc8 wire
  | .reverseWire => crc8 wire.reverse

/-- The validator's result (R132). -/
inductive Verdict where
  | noError
  | checksumError
  deriving DecidableEq, Repr

/-- `validate(wire, c)` (R132); the checksum byte is not fed into the CRC. -/
def validate (order : CrcOrder) (wire : List Byte) (c : Byte) : Verdict :=
  if crcIn order wire = c then .noError else .checksumError

end Sys2Proof.Machine
end

