-- ==== Sys2Proof/Machine/Flags.lean ====
section
/-! DEFINITION. The flags: the Error Code (spec/10_state.md R26, spec/40_sequencer.md R110, spec/60_exceptions.md R201)
and the STATUS register (R24, R25). -/

namespace Sys2Proof.Machine

/-- The bit of ERR and acc that a flag is (R26). -/
def errBit : ErrFlag → BitVec 4
  | .ack => 0b0001#4
  | .timeout => 0b0010#4
  | .crc => 0b0100#4
  | .unit => 0b1000#4

/-- `flag(r)` of `BusWriteAcc` (R12, R110): what a write's answer adds to acc. -/
def respFlags (p : Params) : WriteResp → BitVec 4
  | .ack => 0
  | .nack => errBit .ack
  | .coll => errBit p.collFlag

/-- "STATUS.BUSY = 1 exactly when `st != IDLE`" (R38). -/
def State.busy (s : State) : Bool :=
  match s.seq with
  | .idle => false
  | .run _ _ => true

/-- One STATUS bit in its place. -/
def bitAt (n : Nat) (b : Bool) : Word := (BitVec.ofBool b).setWidth 32 <<< n

/-- STATUS as a host read returns it (R24); bits 3 and 31:8 read 0. -/
def State.status (s : State) : Word :=
  bitAt 0 s.busy ||| bitAt 1 s.ill ||| bitAt 2 s.ovr ||| bitAt 4 s.rhV |||
    bitAt 5 s.tV ||| bitAt 6 s.uregV ||| bitAt 7 s.snV

/-- The STATUS write of R25: `if v[1] = 1 then STATUS.ILL <- 0; if v[2] = 1 then STATUS.OVR <- 0`. -/
def State.writeStatus (v : Word) (s : State) : State :=
  { s with ill := s.ill && !v.getLsbD 1, ovr := s.ovr && !v.getLsbD 2 }

/-- An unassigned opcode written while idle (R102). -/
def State.setIll (s : State) : State := { s with ill := true }

/-- Any word written to CMD while busy (R103). -/
def State.setOvr (s : State) : State := { s with ovr := true }

/-- `acc <- acc | flags` (R110). -/
def State.accumulate (flags : BitVec 4) (s : State) : State := { s with acc := s.acc ||| flags }

end Sys2Proof.Machine
end

