-- ==== Sys2Proof/Machine/Ops.lean ====
section
/-! DEFINITION. What every operation shares (spec/40_sequencer.md): acceptance (R100), the sequencer step (R104), the
answer of a call (R105-R112), error accumulation (R110) and Commit (R113), over listings held as data. The controller has
no traps: Commit is its one reporting operation and nothing returns from it (spec/60_exceptions.md R200, R205, R206). -/

namespace Sys2Proof.Machine

/-- What a listing's `Commit{ ... }` assigns (R113). -/
inductive Commit where
  /-- No result register (R143 s5, R190 s5). -/
  | nothing
  /-- UREG and UREG_V after validation (R140 s8). -/
  | ureg
  /-- RAW, VAL, VALID and ATTEMPTS after validation (R152 s11). -/
  | polled (kind : Kind)
  /-- ATTEMPTS alone (R152 s12). -/
  | attemptsOnly
  /-- RAW, VAL, VALID after validation (R166 s9). -/
  | held (kind : Kind)
  /-- SN[0..7] and SN_V (R183 s28). -/
  | serial
  deriving DecidableEq, Repr

/-- One micro-step of a listing (R13). `next` is the index of the micro-step after it. -/
inductive Micro where
  /-- `BusBegin()` (R105). -/
  | busBegin (next : Nat)
  /-- `BusEnd()` (R106). -/
  | busEnd (next : Nat)
  /-- `BusWriteAcc(b)` (R110). -/
  | writeAcc (b : SendByte) (next : Nat)
  /-- The polling attempt `BusWrite(SENSOR_RADDR)`, not accumulated (R152 s4, R156): `data` is next after a success and
  after a timeout with CONTINUE, `wait` after a failed attempt that is not the last, `skip` after a timeout with SKIP. -/
  | attempt (data wait skip : Nat)
  /-- `dst <- BusRead(p)` (R109). -/
  | read (p : Policy) (dst : ReadDest) (next : Nat)
  /-- `Delay(d)` (R112). -/
  | delay (d : DelayName) (next : Nat)
  /-- The last micro-step (R113). -/
  | commit (what : Commit)
  deriving DecidableEq, Repr

/-- A listing: its micro-steps s0, s1, ... in order (R13). -/
abbrev Listing := List Micro

/-- The call a micro-step issues; none for Commit (R104). -/
def Micro.call (s : State) : Micro → Option Call
  | .busBegin _ => some .busBegin
  | .busEnd _ => some .busEnd
  | .writeAcc b _ => some (.write (b.value s))
  | .attempt _ _ _ => some (.write sensorRaddr)
  | .read p _ _ => some (.read p)
  | .delay d _ => some (.delay d)
  | .commit _ => none

/-- A call with its answer, as the trace records it (R117). -/
def Call.event (a : BusAnswer) : Call → BusEvent
  | .busBegin => .busBegin
  | .busEnd => .busEnd
  | .write b => .write b a.resp
  | .read p => .read p a.byte
  | .delay d => .delay d

/-- Set the index of the next micro-step (R38). -/
def State.goto (op : Op) (n : Nat) (s : State) : State := { s with seq := .run op n }

/-- Command accept (R100), in one step: LAST_OP, opnd, acc, k, ready and `st`; nothing else changes. -/
def accept (i : Instr) (s : State) : State :=
  { s with lastOp := opcodeOf i, opnd := imm8Of i, acc := 0, k := 0, ready := false, seq := .run (opOf i) 0 }

/-- The sequencer's half of a bus micro-step: `req <- the call` (R104). -/
def issue (call : Option Call) (s : State) : State := { s with req := call }

/-- A pending call is answered: it is no longer pending and the trace records it (R104, R117). -/
def record (c : Call) (s : State) : State :=
  { s with req := none, trace := s.trace ++ [c.event s.busIn] }

/-- `k <- k + 1; ready <- (r = ACK)` (R152 s4). -/
def countAttempt (r : WriteResp) (s : State) : State :=
  { s with k := s.k + 1, ready := decide (r = .ack) }

/-- Where the polling loop goes after an attempt (R152 s4), from `ready` and `k` alone (R111). -/
def afterAttempt (data wait skip : Nat) (op : Op) (s : State) : State :=
  if s.ready then s.goto op data
  else if s.k.toNat < pollBudget then s.goto op wait
  else
    match s.params.timeoutReads with
    | .continue => (s.accumulate (errBit .timeout)).goto op data
    | .skip => (s.accumulate (errBit .timeout)).goto op skip

/-- The local computation written with a call, done by the step that answers it (R13, R104). -/
def deliver (op : Op) (m : Micro) (s : State) : State :=
  match m with
  | .busBegin next => s.goto op next
  | .busEnd next => s.goto op next
  | .writeAcc _ next => (s.accumulate (respFlags s.params s.busIn.resp)).goto op next
  | .attempt data wait skip => afterAttempt data wait skip op (countAttempt s.busIn.resp s)
  | .read _ dst next => (s.store dst s.busIn.byte).goto op next
  | .delay _ next => s.goto op next
  | .commit _ => s

/-- The answering step of the bus agent or the delay timer (R104, R108, R112). -/
def answer (op : Op) (m : Micro) (c : Call) (s : State) : State := deliver op m (record c s)

/-- `if validate(wire, c) = ChecksumError then acc <- acc | ERR_CRC` (R133). -/
def checkCrc (wire : List Byte) (s : State) : State :=
  match validate s.params.crcOrder wire s.c with
  | .noError => s
  | .checksumError => s.accumulate (errBit .crc)

/-- `RAW(kind) <- raw; VAL(kind) <- conv(kind, raw & STATUS_MASK); VALID(kind) <- 1` (R152 s11, R166 s9). -/
def writeMeasurement (kind : Kind) (s : State) : State :=
  let raw := rawOf s.d0 s.d1
  match kind with
  | .rh => { s with rhRaw := raw, rhVal := convert .rh (maskStatus raw), rhV := true }
  | .t => { s with tRaw := raw, tVal := convert .t (maskStatus raw), tV := true }

/-- `ATTEMPTS <- zext_32(k)` (R152, R159). -/
def writeAttempts (s : State) : State := { s with attempts := s.k }

/-- The result-register and valid-bit assignments of a Commit, with the validation that stands before it. -/
def Commit.assign (s : State) : Commit → State
  | .nothing => s
  | .ureg =>
    let s := checkCrc [s.d0] s
    { s with ureg := s.d0, uregV := true }
  | .polled kind => writeAttempts (writeMeasurement kind (checkCrc [s.d0, s.d1] s))
  | .attemptsOnly => writeAttempts s
  | .held kind => writeMeasurement kind (checkCrc [s.d0, s.d1] s)
  | .serial => { s with sn := s.snT, snV := true }

/-- `ERR <- zext_32(acc); st <- IDLE` (R113). ERR is replaced, not OR-ed. -/
def publish (s : State) : State := { s with err := s.acc, seq := .idle }

/-- Commit, one atomic step (R113). -/
def commit (what : Commit) (s : State) : State := publish (what.assign s)

/-- A step of operation `op` at micro-step `n` of its listing: the sequencer's step where no call is pending, else the
step that answers the pending call (R104). A call pending at a Commit is reached by no run (log entry 11). -/
def microStep (op : Op) (l : Listing) (n : Nat) (s : State) : Host.Outcome State Fault Refusal :=
  match l[n]?, s.req with
  | none, _ => .fault .offListing
  | some (.commit what), none => .next (commit what s)
  | some m, none => .next (issue (m.call s) s)
  | some m, some c => .next (answer op m c s)

/-- The next atomic step of command `i` with listing `l` (log entry 2): accepted when the sequencer is idle (R100); the
next step of its listing while it runs; and while another operation runs, a command that can only be dropped (R103). -/
def command (i : Instr) (l : Listing) (s : State) : Host.Outcome State Fault Refusal :=
  match s.seq with
  | .idle => .next (accept i s)
  | .run op n => if op = opOf i then microStep op l n s else .next s.setOvr

/-- Controller reset (R220, R221): every piece of controller state takes its value of R43. What is not controller state
(R42) stays: the parameters, what the agents will do, the bus trace and the host's reads (log entry 12). -/
def controllerReset (s : State) : State :=
  { State.reset with
    params := s.params, moves := s.moves, agents := s.agents, prog := s.prog, busIn := s.busIn, draws := s.draws,
    trace := s.trace, reads := s.reads }

end Sys2Proof.Machine
end

