-- ==== Sys2Proof/Machine/HostPort.lean ====
section
/-! DEFINITION. The host register port (spec/20_memory.md R60-R62, spec/10_state.md R22-R35) and the host's lines
(spec/30_encoding.md R90-R92). -/

namespace Sys2Proof.Machine

/-- `MemRead(a, 4)` (R61): the register map of R22, reserved bits 0, CMD and HADDR 12..15 reading 0. -/
def State.hostRead (s : State) (a : HAddr) : Word :=
  match a with
  | 0x1#4 => s.status
  | 0x2#4 => s.err.setWidth 32
  | 0x3#4 => s.lastOp.setWidth 32
  | 0x4#4 => s.rhRaw.setWidth 32
  | 0x5#4 => s.rhVal
  | 0x6#4 => s.tRaw.setWidth 32
  | 0x7#4 => s.tVal
  | 0x8#4 => s.ureg.setWidth 32
  | 0x9#4 => s.sn.lo
  | 0xA#4 => s.sn.hi
  | 0xB#4 => s.attempts.setWidth 32
  | _ => 0

/-- The register at `a` has no valid bit, or its valid bit is 1 (R24, R44). -/
def State.written (s : State) (a : HAddr) : Bool :=
  match a with
  | 0x4#4 => s.rhV
  | 0x5#4 => s.rhV
  | 0x6#4 => s.tV
  | 0x7#4 => s.tV
  | 0x8#4 => s.uregV
  | 0x9#4 => s.snV
  | 0xA#4 => s.snV
  | _ => true

/-- What the host program has from reading `a`: the register's word, and no value where the register was never written
(R44, I15; log entry 9). -/
def State.readValue (s : State) (a : HAddr) : Option Word := if s.written a then some (s.hostRead a) else none

/-- A host read: no side effect on the controller (R61); the host keeps what it read. -/
def State.noteRead (a : HAddr) (s : State) : State :=
  { s with reads := s.reads ++ [{ addr := a, value := s.readValue a }] }

/-- What a step does: it is done, or it is `exec` of a command in the given state. -/
inductive Action where
  | done (s : State)
  | exec (i : Instr) (s : State)
  deriving DecidableEq, Repr

/-- A write to CMD: overrun while busy, not decoded (R103); else illegal (R102) or accepted (R100). -/
def writeCmd (w : Word) (s : State) : Action :=
  if s.busy then .done s.setOvr
  else
    match decode w with
    | .legal i => .exec i s
    | .illegal _ => .done s.setIll

/-- `MemWrite(a, 4, v)` "has exactly these effects and no others" (R62). -/
def hostWrite (a : HAddr) (v : Word) (s : State) : Action :=
  if a = haddrCmd then writeCmd v s
  else if a = haddrStatus then .done (s.writeStatus v)
  else .done s

/-- `(u & ~clr) | set` (R92, UREG.RMW). -/
def rmwValue (clr set u : Byte) : Byte := (u &&& ~~~clr) ||| set

/-- The write half of UREG.RMW: `UREG.WR ((u & ~clr) | set); wait_idle` (R92). -/
def rmwWrite (clr set u : Byte) : List HostLine :=
  [.hw haddrCmd (encode (.uregWr (rmwValue clr set u))), .waitIdle]

/-- The value of the host's last read is 0 (`e = 0` of UREG.RMW, R92; log entry 14). -/
def State.lastReadZero (s : State) : Bool := s.reads.getLast?.any (fun r => r.value == some 0)

/-- The lines after the read of UREG in UREG.RMW (R92). Where UREG was never written the host has no value of it, and the
byte it computes with is a free value (I15; log entry 9). -/
def rmwLines (clr set : Byte) (rest : List HostLine) (s : State) : State :=
  if s.lastReadZero then
    if s.uregV then { s with prog := rmwWrite clr set s.ureg ++ rest }
    else { s with prog := rmwWrite clr set (Config.freeByte s.draws) ++ rest, draws := s.draws + 1 }
  else { s with prog := rest }

/-- One step of the host: the one access of its current line (R66, R90, R92). A host with no line left does nothing. -/
def hostMove (s : State) : Action :=
  match s.prog with
  | [] => .done s
  | .hw a v :: rest => hostWrite a v { s with prog := rest }
  | .hr a :: rest => .done (State.noteRead a { s with prog := rest })
  | .waitIdle :: rest =>
    .done (State.noteRead haddrStatus { s with prog := if s.busy then .waitIdle :: rest else rest })
  | .rmwUreg clr set :: rest =>
    .done (State.noteRead haddrUreg (rmwLines clr set rest s))

/-- The assembler's command mnemonics (R91): one host write to CMD; it refuses an operand that is not UREG.WR's. -/
def assemble (i : Instr) : Option HostLine :=
  if i.wf then some (.hw haddrCmd (encode i)) else none

/-- `clr_status` (R92). -/
def clrStatus : List HostLine := [.hw haddrStatus 0x00000006#32]

/-- `UREG.RMW clr, set` (R92). -/
def uregRmw (clr set : Byte) : List HostLine :=
  [.hw haddrCmd (encode (.uregRd 0)), .waitIdle, .hr haddrErr, .rmwUreg clr set]

/-- `MEASURE kind` (R92). -/
def measure (kind : Kind) : List HostLine :=
  match kind with
  | .rh => [.hw haddrCmd (encode (.measRh 0)), .waitIdle, .hr haddrErr, .hr haddrRhVal]
  | .t => [.hw haddrCmd (encode (.measT 0)), .waitIdle, .hr haddrErr, .hr haddrTVal]

end Sys2Proof.Machine
end

