-- ==== Sys2Proof/Machine/Agents.lean ====
section
/-! DEFINITION. Which agent takes the next step (spec/20_memory.md R66): host, sequencer, bus agent, delay timer, and the
platform's controller reset (spec/70_reset_and_hazards.md R220). -/

namespace Sys2Proof.Machine

/-- The pending call is one of the bus agent's, a bus primitive (R108). -/
def State.busPending (s : State) : Bool :=
  match s.req with
  | none => false
  | some .busBegin => true
  | some .busEnd => true
  | some (.write _) => true
  | some (.read _) => true
  | some (.delay _) => false

/-- The pending call is the delay timer's (R112). -/
def State.delayPending (s : State) : Bool :=
  match s.req with
  | none => false
  | some .busBegin => false
  | some .busEnd => false
  | some (.write _) => false
  | some (.read _) => false
  | some (.delay _) => true

/-- The step of the running command; in IDLE the controller "takes no step and makes no bus call" (R101). -/
def runningStep (s : State) : Action :=
  match s.seq with
  | .idle => .done s
  | .run op _ => .exec (instrOf op s.opnd) s

/-- The sequencer moves only while no call is pending (R104). -/
def sequencerMove (s : State) : Action := if s.req = none then runningStep s else .done s

/-- The bus agent answers the pending bus call with `a` (R108); an answer no call waits for is discarded (R221). -/
def busMove (a : BusAnswer) (s : State) : Action :=
  if s.busPending then runningStep { s with busIn := a } else .done s

/-- The delay timer completes the pending delay (R112, R210). -/
def timerMove (s : State) : Action := if s.delayPending then runningStep s else .done s

/-- The bus agent's answer where the list of moves gives none: a free value (R108; log entry 3). -/
def drawAnswer (s : State) : State := { s with busIn := Config.freeAnswer s.draws, draws := s.draws + 1 }

/-- The running operation waits for an answer that does not come: the bus agent and the delay timer answer no more (R229,
R233, I9, I10; log entry 16). -/
def State.unanswered (s : State) : Bool := s.agents == .silent && s.req.isSome

/-- The order taken where the list of moves is empty (log entry 1): a running operation goes on to its Commit, and then
the host executes its next line. Where a call goes unanswered the operation stays where it is, and only the host moves. -/
def defaultMove (s : State) : Action :=
  if s.busy && !s.unanswered then runningStep (if s.busPending then drawAnswer s else s) else hostMove s

/-- One agent's move. -/
def moveOf (m : Move) (s : State) : Action :=
  match m with
  | .host => hostMove s
  | .sequencer => sequencerMove s
  | .bus a => busMove a s
  | .timer => timerMove s
  | .reset => .done (controllerReset s)

/-- The next step's action: the first of the listed moves, else the default one (R66: any enabled agent may move). -/
def nextAction (s : State) : Action :=
  match s.moves with
  | [] => defaultMove s
  | m :: rest => moveOf m { s with moves := rest }

/-- `s` ready to accept the command word `w` in its very next step: the sequencer idle, nothing pending, and the host
about to write `w` to CMD (log entry 10). -/
def placeCommand (w : Word) (s : State) : State :=
  { s with seq := .idle, req := none, moves := .host :: s.moves, prog := .hw haddrCmd w :: s.prog }

end Sys2Proof.Machine
end

