-- ==== Sys2Proof/Machine/Measurement.lean ====
section
/-! DEFINITION. The measurement engine: MEAS.RH, MEAS.T, MEAS.RH.HOLD, MEAS.T.HOLD (spec/43_measurement.md). -/

namespace Sys2Proof.Machine

/-- `trig_poll(kind)` (R152). -/
def trigPoll : Kind → Byte
  | .rh => cmdTrigRhPoll
  | .t => cmdTrigTPoll

/-- `trig_hold(kind)` (R152). -/
def trigHold : Kind → Byte
  | .rh => cmdTrigRhHold
  | .t => cmdTrigTHold

/-- The listing `MEAS_POLL(kind)` (R152). -/
def pollListing (kind : Kind) : Listing :=
  [ .busBegin 1,
    .writeAcc (.const sensorWaddr) 2,
    .writeAcc (.const (trigPoll kind)) 3,
    .busBegin 4,
    .attempt 6 5 10,
    .delay .pollInterval 3,
    .read .ack .d0 7,
    .read .ack .d1 8,
    .read .nack .c 9,
    .busEnd 11,
    .busEnd 12,
    .commit (.polled kind),
    .commit .attemptsOnly ]

/-- The listing `MEAS_HOLD(kind)` (R166). -/
def holdListing (kind : Kind) : Listing :=
  [ .busBegin 1,
    .writeAcc (.const sensorWaddr) 2,
    .writeAcc (.const (trigHold kind)) 3,
    .busBegin 4,
    .writeAcc (.const sensorRaddr) 5,
    .read .ack .d0 6,
    .read .ack .d1 7,
    .read .nack .c 8,
    .busEnd 9,
    .commit (.held kind) ]

/-- MEAS.RH (R150). -/
def execMeasRh (imm8 : Byte) (s : State) : Host.Outcome State Fault Refusal :=
  command (.measRh imm8) (pollListing .rh) s

/-- MEAS.T (R151). -/
def execMeasT (imm8 : Byte) (s : State) : Host.Outcome State Fault Refusal :=
  command (.measT imm8) (pollListing .t) s

/-- MEAS.RH.HOLD (R166). -/
def execMeasRhHold (imm8 : Byte) (s : State) : Host.Outcome State Fault Refusal :=
  command (.measRhHold imm8) (holdListing .rh) s

/-- MEAS.T.HOLD (R167). -/
def execMeasTHold (imm8 : Byte) (s : State) : Host.Outcome State Fault Refusal :=
  command (.measTHold imm8) (holdListing .t) s

end Sys2Proof.Machine
end

