-- ==== Sys2Proof/Machine/RegisterAccess.lean ====
section
/-! DEFINITION. UREG.RD and UREG.WR (spec/42_register_access.md). -/

namespace Sys2Proof.Machine

/-- The listing of UREG.RD (R140). -/
def uregRdListing : Listing :=
  [ .busBegin 1,
    .writeAcc (.const sensorWaddr) 2,
    .writeAcc (.const cmdReadReg) 3,
    .busBegin 4,
    .writeAcc (.const sensorRaddr) 5,
    .read .ack .d0 6,
    .read .nack .c 7,
    .busEnd 8,
    .commit .ureg ]

/-- UREG.RD (R140). -/
def execUregRd (imm8 : Byte) (s : State) : Host.Outcome State Fault Refusal :=
  command (.uregRd imm8) uregRdListing s

/-- The listing of UREG.WR (R143). -/
def uregWrListing : Listing :=
  [ .busBegin 1,
    .writeAcc (.const sensorWaddr) 2,
    .writeAcc (.const cmdWriteReg) 3,
    .writeAcc .opnd 4,
    .busEnd 5,
    .commit .nothing ]

/-- UREG.WR v (R143). -/
def execUregWr (imm8 : Byte) (s : State) : Host.Outcome State Fault Refusal :=
  command (.uregWr imm8) uregWrListing s

end Sys2Proof.Machine
end

