-- ==== Sys2Proof/Machine/SerialNumber.lean ====
section
/-! DEFINITION. The serial-number assembler SN.RD (spec/44_serial_number.md). -/

namespace Sys2Proof.Machine

/-- Sequence 1: the 0xFA / 0x0F bank (R181, s0-s14). -/
def snBank1 : Listing :=
  [ .busBegin 1,
    .writeAcc (.const sensorWaddr) 2,
    .writeAcc (.const cmdSn1) 3,
    .writeAcc (.const addrSn1) 4,
    .busBegin 5,
    .writeAcc (.const sensorRaddr) 6,
    .read .ack (.snT 5) 7,
    .read .ack .discard 8,
    .read .ack (.snT 4) 9,
    .read .ack .discard 10,
    .read .ack (.snT 3) 11,
    .read .ack .discard 12,
    .read .ack (.snT 2) 13,
    .read .nack .discard 14,
    .busEnd 15 ]

/-- Sequence 2: the 0xFC / 0xC9 bank (R182, s15-s27). -/
def snBank2 : Listing :=
  [ .busBegin 16,
    .writeAcc (.const sensorWaddr) 17,
    .writeAcc (.const cmdSn2) 18,
    .writeAcc (.const addrSn2) 19,
    .busBegin 20,
    .writeAcc (.const sensorRaddr) 21,
    .read .ack (.snT 1) 22,
    .read .ack (.snT 0) 23,
    .read .ack .discard 24,
    .read .ack (.snT 7) 25,
    .read .ack (.snT 6) 26,
    .read .nack .discard 27,
    .busEnd 28 ]

/-- The listing of SN.RD (R180): sequence 1, sequence 2, then the Commit of R183 (s28). -/
def snRdListing : Listing := snBank1 ++ snBank2 ++ [.commit .serial]

/-- SN.RD (R180). -/
def execSnRd (imm8 : Byte) (s : State) : Host.Outcome State Fault Refusal :=
  command (.snRd imm8) snRdListing s

end Sys2Proof.Machine
end

