-- ==== Sys2Proof/Machine/SoftReset.lean ====
section
/-! DEFINITION. The sensor soft reset SRST (spec/45_reset.md). It resets the sensor, not the controller. -/

namespace Sys2Proof.Machine

/-- The listing of SRST (R190). -/
def srstListing : Listing :=
  [ .busBegin 1,
    .writeAcc (.const sensorWaddr) 2,
    .writeAcc (.const cmdSoftReset) 3,
    .busEnd 4,
    .delay .settleDelay 5,
    .commit .nothing ]

/-- SRST (R190). -/
def execSrst (imm8 : Byte) (s : State) : Host.Outcome State Fault Refusal :=
  command (.srst imm8) srstListing s

end Sys2Proof.Machine
end

