-- ==== Sys2Proof/Machine/Dispatch.lean ====
section
/-! DEFINITION. Which meaning each command has. -/

namespace Sys2Proof.Machine

def exec (i : Instr) (s : State) : Host.Outcome State Fault Refusal :=
  match i with
  | .measTHold imm8 => Sys2Proof.Machine.execMeasTHold imm8 s
  | .measRhHold imm8 => Sys2Proof.Machine.execMeasRhHold imm8 s
  | .uregWr imm8 => Sys2Proof.Machine.execUregWr imm8 s
  | .uregRd imm8 => Sys2Proof.Machine.execUregRd imm8 s
  | .measT imm8 => Sys2Proof.Machine.execMeasT imm8 s
  | .measRh imm8 => Sys2Proof.Machine.execMeasRh imm8 s
  | .snRd imm8 => Sys2Proof.Machine.execSnRd imm8 s
  | .srst imm8 => Sys2Proof.Machine.execSrst imm8 s

end Sys2Proof.Machine
end

