-- ==== Sys2Proof/Machine/Step.lean ====
section
/-! DEFINITION. One step of the machine. -/

namespace Sys2Proof.Machine

/-- One atomic step of one agent (spec/20_memory.md R66). -/
def step (s : State) : Host.Outcome State Fault Refusal :=
  match nextAction s with
  | .done t => .next t
  | .exec i t => exec i t

/-- `s` with the command word of bits `w` placed where the next step runs it (log entry 10). -/
def State.withFetchWord (s : State) (nbits w : Nat) : State := placeCommand (tableWord nbits w) s

end Sys2Proof.Machine
end

