-- ==== Sys2Proof/Safety.lean ====
section
/-! DEFINITION. What counts as a sound state of the controller (what the rules of spec/10_state.md say of every state a run
reaches) and as a host that obeys the rules of spec/70_reset_and_hazards.md. -/

namespace Sys2Proof.Machine

/-- The listing each operation runs (R38). -/
def listingOf : Op → Listing
  | .measTHold => holdListing .t
  | .measRhHold => holdListing .rh
  | .uregWr => uregWrListing
  | .uregRd => uregRdListing
  | .measT => pollListing .t
  | .measRh => pollListing .rh
  | .snRd => snRdListing
  | .srst => srstListing

/-- The operation polls: MEAS.RH and MEAS.T (R150, R151). -/
def Op.polls : Op → Bool
  | .measTHold => false
  | .measRhHold => false
  | .uregWr => false
  | .uregRd => false
  | .measT => true
  | .measRh => true
  | .snRd => false
  | .srst => false

/-- The operation validates a checksum (R134). -/
def Op.validates : Op → Bool
  | .measTHold => true
  | .measRhHold => true
  | .uregWr => false
  | .uregRd => true
  | .measT => true
  | .measRh => true
  | .snRd => false
  | .srst => false

/-- The flags a write's answer can add (R110): ERR_ACK, and COLL_FLAG. -/
def writeFlags (p : Params) : BitVec 4 := errBit .ack ||| errBit p.collFlag

/-- The flags acc can hold while `op` runs: the validator runs only at Commit. -/
def runFlags (p : Params) (op : Op) : BitVec 4 :=
  writeFlags p ||| (if op.polls then errBit .timeout else 0)

/-- The flags `op` can publish (R201). -/
def publishedFlags (p : Params) (op : Op) : BitVec 4 :=
  runFlags p op ||| (if op.validates then errBit .crc else 0)

/-- Every flag of `x` is one of `allowed`. -/
def flagsWithin (x allowed : BitVec 4) : Prop := x &&& ~~~allowed = 0

/-- What holds of the sequencer: the micro-step index is one of the running listing's, and what is pending, if anything,
is the call of that micro-step (R38, R70, R104); in IDLE nothing is pending. -/
def sequencerSound (s : State) : Prop :=
  match s.seq with
  | .idle => s.req = none
  | .run op n =>
    n < (listingOf op).length ∧
      (s.req = none ∨ ∃ m, (listingOf op)[n]? = some m ∧ s.req = m.call s)

/-- What LAST_OP and acc hold while an operation runs, and LAST_OP and ERR after it (R27, R205); with ERR_TIMEOUT,
"ATTEMPTS = 200" is recorded (R201). Where COLL_FLAG is not TIMEOUT, that flag comes from the polling loop alone. -/
def flagsSound (s : State) : Prop :=
  match s.seq with
  | .idle =>
    match decodeFields s.lastOp 0 with
    | .legal i =>
      flagsWithin s.err (publishedFlags s.params (opOf i)) ∧
        (s.params.collFlag ≠ .timeout → s.err.getLsbD 1 = true → s.attempts.toNat = pollBudget)
    | .illegal _ => s.err = 0
  | .run op _ => s.lastOp = opcodeOf (instrOf op s.opnd) ∧ flagsWithin s.acc (runFlags s.params op)

/-- The polling loop (R156-R158) at micro-step `n` of MEAS_POLL: how many attempts were made, whether the last was
acknowledged, and that a timeout has left ERR_TIMEOUT in acc. -/
def pollSoundAt (n : Nat) (s : State) : Prop :=
  if n ≤ 2 then s.k = 0 ∧ s.ready = false
  else if n ≤ 4 then s.k.toNat < pollBudget ∧ s.ready = false
  else if n = 5 then 1 ≤ s.k.toNat ∧ s.k.toNat < pollBudget ∧ s.ready = false
  else if n = 10 ∨ n = 12 then
    s.k.toNat = pollBudget ∧ s.ready = false ∧ s.params.timeoutReads = .skip ∧ s.acc.getLsbD 1 = true
  else
    1 ≤ s.k.toNat ∧ s.k.toNat ≤ pollBudget ∧
      (s.ready = false →
        s.k.toNat = pollBudget ∧ s.params.timeoutReads = .continue ∧ s.acc.getLsbD 1 = true)

/-- ERR_TIMEOUT is in acc exactly when every attempt of the budget failed (R157); COLL_FLAG = TIMEOUT aside. -/
def timeoutFlagSound (s : State) : Prop :=
  s.params.collFlag ≠ .timeout → s.acc.getLsbD 1 = (!s.ready && decide (s.k.toNat = pollBudget))

/-- While a polled measurement runs, `pollSoundAt` its micro-step, and the timeout flag. -/
def pollSound (s : State) : Prop :=
  match s.seq with
  | .idle => True
  | .run op n => op.polls = true → pollSoundAt n s ∧ timeoutFlagSound s

/-- Results: a group whose valid bit is 0 holds 0 (R44); a value register is the conversion of its raw register. -/
def resultsSound (s : State) : Prop :=
  (s.rhV = false → s.rhRaw = 0 ∧ s.rhVal = 0) ∧
  (s.rhV = true → s.rhVal = convert .rh (maskStatus s.rhRaw)) ∧
  (s.tV = false → s.tRaw = 0 ∧ s.tVal = 0) ∧
  (s.tV = true → s.tVal = convert .t (maskStatus s.tRaw)) ∧
  (s.uregV = false → s.ureg = 0) ∧
  (s.snV = false → s.sn = SnBytes.zero) ∧
  s.attempts.toNat ≤ pollBudget

/-- The invariant of the controller: what every step keeps. -/
structure State.Inv (s : State) : Prop where
  paramsWf : s.params.wf = true
  noUnitFlag : s.err.getLsbD 3 = false
  sequencer : sequencerSound s
  flags : flagsSound s
  poll : pollSound s
  results : resultsSound s

/-- The sequencer is about to perform micro-step `n` of `op`: no call is pending (R104). -/
def State.atMicro (op : Op) (n : Nat) (s : State) : Prop := s.seq = .run op n ∧ s.req = none

/-- The call `c` of micro-step `n` of `op` waits for its answer (R104). -/
def State.waits (op : Op) (n : Nat) (c : Call) (s : State) : Prop := s.seq = .run op n ∧ s.req = some c

/-- The moves of a row of bus calls, each issued by the sequencer and answered by the bus agent (R104, R108). -/
def callMoves (answers : List BusAnswer) : List Move := answers.flatMap fun a => [.sequencer, .bus a]

/-- The moves of a failed polling attempt and the wait after it (R156), with the answers to its `BusBegin` and its
`BusWrite`. -/
def failedAttemptMoves (p : BusAnswer × BusAnswer) : List Move :=
  callMoves [p.1, p.2] ++ [.sequencer, .timer]

/-- What a failed attempt and the wait after it leave in the trace (R117, R156). -/
def failedAttemptEvents (p : BusAnswer × BusAnswer) : List BusEvent :=
  [.busBegin, .write 0x81 p.2.resp, .delay .pollInterval]

/-- The polled measurement of a kind (R150, R151). -/
def pollCommand (kind : Kind) (imm8 : Byte) : Instr :=
  match kind with
  | .rh => .measRh imm8
  | .t => .measT imm8

/-- The hold-master measurement of a kind (R166, R167). -/
def holdCommand (kind : Kind) (imm8 : Byte) : Instr :=
  match kind with
  | .rh => .measRhHold imm8
  | .t => .measTHold imm8

/-- The host registers an operation's Commit may write, beside STATUS and ERR (R141, R144, R165, R166, R183, R191). -/
def Op.outputs : Op → List HAddr
  | .measTHold => [haddrTRaw, haddrTVal]
  | .measRhHold => [haddrRhRaw, haddrRhVal]
  | .uregWr => []
  | .uregRd => [haddrUreg]
  | .measT => [haddrTRaw, haddrTVal, haddrAttempts]
  | .measRh => [haddrRhRaw, haddrRhVal, haddrAttempts]
  | .snRd => [haddrSnLo, haddrSnHi]
  | .srst => []

/-- The next step is the host's: it is listed, or nothing is listed and the controller is idle or waits for an answer that
does not come (log entries 1 and 16). -/
def State.hostMovesNext (s : State) : Bool :=
  match s.moves with
  | [] => !s.busy || s.unanswered
  | .host :: _ => true
  | .sequencer :: _ => false
  | .bus _ :: _ => false
  | .timer :: _ => false
  | .reset :: _ => false

/-- The next step applies controller reset. -/
def State.resetsNext (s : State) : Bool :=
  match s.moves with
  | .reset :: _ => true
  | [] => false
  | .host :: _ => false
  | .sequencer :: _ => false
  | .bus _ :: _ => false
  | .timer :: _ => false

/-- The word the next step writes to CMD, if it writes CMD. -/
def State.cmdWriteNext (s : State) : Option Word :=
  if s.hostMovesNext then
    match s.prog with
    | .hw a w :: _ => if a = haddrCmd then some w else none
    | [] => none
    | .hr _ :: _ => none
    | .waitIdle :: _ => none
    | .rmwUreg _ _ :: _ => none
  else none

/-- The host is about to write `w` to CMD: its current line says so, and it moves next. -/
def State.issues (w : Word) (rest : List HostLine) (s : State) : Prop :=
  s.hostMovesNext = true ∧ s.prog = .hw haddrCmd w :: rest

/-- The next step breaks the host's duty R223: it writes CMD while BUSY is 1. -/
def State.breaksBusyRule (s : State) : Bool := s.busy && s.cmdWriteNext.isSome

/-- The end of a run (R233): the host program has executed its last line, `st = IDLE`, and no bus call and no delay is
pending. -/
def State.runOver (s : State) : Bool := s.prog.isEmpty && !s.busy && s.req.isNone

/-- A stuck run (R229, R233, I9, I10): the operation waits for an answer, no move is listed, and no agent answers any more;
no controller reset is to come. -/
def State.stuck (s : State) : Bool := s.busy && s.unanswered && s.moves.isEmpty

/-- What a claim about the controller may speak of (R117, R233): the host registers as reads return them, and the bus
trace. -/
structure Observation where
  registers : Vector Word 16
  trace     : List BusEvent
  deriving DecidableEq, Repr

/-- The observation of a state. -/
def State.observation (s : State) : Observation :=
  { registers := Vector.ofFn fun i => s.hostRead (BitVec.ofFin i), trace := s.trace }

/-- No read of the run met a result register that was never written (R44, R230; log entry 9). -/
def State.readsSafe (s : State) : Bool := s.reads.all (·.value.isSome)

/-- A safe state of a run: nothing the host was told to avoid has happened (R223, R230). -/
def State.hostSafe (s : State) : Bool := s.readsSafe && !s.ovr

end Sys2Proof.Machine
end

