-- ==== Sys2Proof/Certificates/Slice0/Obligations.lean ====
section
/-! DEFINITION. The statements for the provers. Each docstring names the rule of spec/ it formalises. -/

open Sys2Proof Sys2Proof.Machine

/-! ### Encoding -/

/-- R83, with the words of spec/95_test_vectors.md L2.3: the eight command words, words whose ignored bits are set, and
illegal ones. -/
def Obligations.SpecWordsDecode : Prop :=
  decode 0x000000E3#32 = .legal (.measTHold 0) ∧ decode 0x000000E5#32 = .legal (.measRhHold 0) ∧
  decode 0x000006E6#32 = .legal (.uregWr 0x06) ∧ decode 0x000000E7#32 = .legal (.uregRd 0) ∧
  decode 0x000000F3#32 = .legal (.measT 0) ∧ decode 0x000000F5#32 = .legal (.measRh 0) ∧
  decode 0x000000FA#32 = .legal (.snRd 0) ∧ decode 0x000000FE#32 = .legal (.srst 0) ∧
  decode 0xABCD00F5#32 = .legal (.measRh 0) ∧ decode 0x0000FFE6#32 = .legal (.uregWr 0xFF) ∧
  decode 0x00000000#32 = .illegal 0x00 ∧ decode 0x000000FC#32 = .illegal 0xFC ∧
  decode 0x0000E700#32 = .illegal 0x00

/-- R82, R86: decoding an encoded command gives it back, with every operand byte, well-formed or not. -/
def Obligations.DecodeOfEncodeIsTheCommand : Prop :=
  ∀ i : Instr, decode (encode i) = .legal i

/-- R86, R83, R85: `dec(w)` is the row whose opcode equals w[7:0], with the operand of w[15:8], else illegal; w[31:16]
plays no part. -/
def Obligations.DecodeIsTheRowOfTheOpcodeField : Prop :=
  (∀ (w : Word) (i : Instr), decode w = .legal i ↔ opcodeOf i = opcodeField w ∧ imm8Of i = imm8Field w) ∧
  (∀ w : Word, (∃ b, decode w = .illegal b) ↔
    opcodeField w ∉ [0xE3#8, 0xE5#8, 0xE6#8, 0xE7#8, 0xF3#8, 0xF5#8, 0xFA#8, 0xFE#8]) ∧
  (∀ v w : Word, v.setWidth 16 = w.setWidth 16 → decode v = decode w)

/-- R91: the assembler spells a well-formed command as one host write to CMD that decodes to it, and refuses an operand
on any other mnemonic than UREG.WR. -/
def Obligations.AssemblerEmitsItsCommand : Prop :=
  ∀ i : Instr,
    (i.wf = true → ∃ w, assemble i = some (.hw haddrCmd w) ∧ decode w = .legal i) ∧
    (assemble i = none ↔ imm8Of i ≠ 0 ∧ ∀ b, i ≠ .uregWr b)

/-! ### A step runs the decoded command -/

/-- R62, R100: where the host's next access writes to CMD, while idle, a word that decodes to `i`, the step is `exec i`,
after the host's line and move are used up. -/
def Obligations.StepRunsTheIssuedCommand : Prop :=
  ∀ (s : State) (w : Word) (rest : List HostLine) (i : Instr),
    s.seq = .idle → s.issues w rest → decode w = .legal i →
      step s = exec i { s with prog := rest, moves := s.moves.tail }

/-- R104, R108, R112: while an operation runs, a step of the sequencer, of the bus agent and of the delay timer is `exec`
of the running command; the bus agent's answer stands in `busIn`. The two clauses for no listed move are the model's choice:
that the operation then goes on is the default order of log entry 1, for agents that answer (log entry 16), and the answer is
the free value of log entry 3. -/
def Obligations.StepRunsTheRunningCommand : Prop :=
  ∀ (s : State) (op : Op) (n : Nat), s.seq = .run op n →
    (∀ rest, s.moves = .sequencer :: rest → s.req = none →
      step s = exec (instrOf op s.opnd) { s with moves := rest }) ∧
    (∀ a rest, s.moves = .bus a :: rest → s.busPending = true →
      step s = exec (instrOf op s.opnd) { s with moves := rest, busIn := a }) ∧
    (∀ rest, s.moves = .timer :: rest → s.delayPending = true →
      step s = exec (instrOf op s.opnd) { s with moves := rest }) ∧
    (s.moves = [] → s.agents = .fair → s.busPending = true →
      step s = exec (instrOf op s.opnd)
        { s with busIn := Config.freeAnswer s.draws, draws := s.draws + 1 }) ∧
    (s.moves = [] → s.agents = .fair ∨ s.req = none → s.busPending = false →
      step s = exec (instrOf op s.opnd) s)

/-- R104, R221: an agent that is not enabled changes nothing: the sequencer with a call pending, the bus agent with none
(an answer that comes late "is discarded"), the delay timer with no delay pending. The used-up move is the model's. -/
def Obligations.DisabledAgentsChangeNothing : Prop :=
  ∀ (s : State) (rest : List Move),
    (s.moves = .sequencer :: rest → s.req ≠ none → step s = .next { s with moves := rest }) ∧
    (∀ a, s.moves = .bus a :: rest → s.busPending = false → step s = .next { s with moves := rest }) ∧
    (s.moves = .timer :: rest → s.delayPending = false → step s = .next { s with moves := rest })

/-- R101: an operation starts only by a host write to CMD of a legal word (R100); in IDLE the controller makes no bus call,
and a move of the sequencer, the bus agent or the timer does nothing (the used-up move is the model's). -/
def Obligations.OnlyACommandWriteStartsAnOperation : Prop :=
  ∀ s t : State, s.seq = .idle → step s = .next t →
    t.trace = s.trace ∧ (s.req = none → t.req = none) ∧
    (t.busy = true → ∃ w i, s.cmdWriteNext = some w ∧ decode w = .legal i ∧ t.seq = .run (opOf i) 0) ∧
    (s.req = none → s.hostMovesNext = false → s.resetsNext = false → t = { s with moves := s.moves.tail })

/-! ### Command issue -/

/-- R100: what acceptance writes, in one step, and that nothing else changes (the host's line and move are used up). -/
def Obligations.AcceptWritesLastOpAndOperand : Prop :=
  ∀ (s : State) (w : Word) (rest : List HostLine) (i : Instr),
    s.seq = .idle → s.issues w rest → decode w = .legal i →
      step s = .next { s with
        lastOp := w.extractLsb' 0 8, opnd := w.extractLsb' 8 8, acc := 0, k := 0, ready := false,
        seq := .run (opOf i) 0, prog := rest, moves := s.moves.tail }

/-- R100 for each of the eight commands: `exec` of it in IDLE answers the accepted state. -/
def Obligations.EveryCommandIsAcceptedWhenIdle : Prop :=
  ∀ (i : Instr) (s : State), s.seq = .idle →
    exec i s = .next { s with
      lastOp := opcodeOf i, opnd := imm8Of i, acc := 0, k := 0, ready := false, seq := .run (opOf i) 0 }

/-- R102: an unassigned opcode written while idle sets ILL and changes nothing else. -/
def Obligations.IllegalCommandSetsIllOnly : Prop :=
  ∀ (s : State) (w : Word) (rest : List HostLine) (b : Byte),
    s.seq = .idle → s.issues w rest → decode w = .illegal b →
      step s = .next { s with ill := true, prog := rest, moves := s.moves.tail }

/-- R103: any word written while busy, legal or not, sets OVR and is dropped; the running operation is untouched. -/
def Obligations.OverrunSetsOvrOnly : Prop :=
  ∀ (s : State) (w : Word) (rest : List HostLine),
    s.seq ≠ .idle → s.issues w rest →
      step s = .next { s with ovr := true, prog := rest, moves := s.moves.tail }

/-- The model's own form of R103 (log entry 2): `exec` of a command while another operation runs is the overrun. -/
def Obligations.AnotherCommandIsDropped : Prop :=
  ∀ (i : Instr) (s : State) (op : Op) (n : Nat), s.seq = .run op n → op ≠ opOf i →
    exec i s = .next { s with ovr := true }

/-- R24: OVR is set only by a CMD write while busy, which breaks the host's duty R223; ILL only by an illegal word written
while idle. -/
def Obligations.OvrAndIllAreSetOnlyByCommandWrites : Prop :=
  ∀ s t : State, step s = .next t →
    (s.ovr = false → t.ovr = true → s.breaksBusyRule = true) ∧
    (s.ill = false → t.ill = true → s.busy = false ∧ ∃ w b, s.cmdWriteNext = some w ∧ decode w = .illegal b)

/-! ### The host register port -/

/-- R22, R26 to R35: what a host read of each register returns, reserved bits 0. -/
def Obligations.HostRegisterMap : Prop :=
  ∀ s : State,
    s.hostRead 0 = 0 ∧
    s.hostRead 2 = BitVec.ofNat 32 s.err.toNat ∧ s.hostRead 3 = BitVec.ofNat 32 s.lastOp.toNat ∧
    s.hostRead 4 = BitVec.ofNat 32 s.rhRaw.toNat ∧ s.hostRead 5 = s.rhVal ∧
    s.hostRead 6 = BitVec.ofNat 32 s.tRaw.toNat ∧ s.hostRead 7 = s.tVal ∧
    s.hostRead 8 = BitVec.ofNat 32 s.ureg.toNat ∧
    (s.hostRead 10).toNat * 2 ^ 32 + (s.hostRead 9).toNat =
      s.sn.b0.toNat + s.sn.b1.toNat * 2 ^ 8 + s.sn.b2.toNat * 2 ^ 16 + s.sn.b3.toNat * 2 ^ 24 +
      s.sn.b4.toNat * 2 ^ 32 + s.sn.b5.toNat * 2 ^ 40 + s.sn.b6.toNat * 2 ^ 48 + s.sn.b7.toNat * 2 ^ 56 ∧
    s.hostRead 11 = BitVec.ofNat 32 s.attempts.toNat ∧
    s.hostRead 12 = 0 ∧ s.hostRead 13 = 0 ∧ s.hostRead 14 = 0 ∧ s.hostRead 15 = 0

/-- R24, R38: the bits of STATUS; BUSY is 1 exactly when the sequencer is not idle. -/
def Obligations.StatusRegisterBits : Prop :=
  ∀ s : State,
    ((s.hostRead 1).getLsbD 0 = true ↔ s.seq ≠ .idle) ∧
    (s.hostRead 1).getLsbD 1 = s.ill ∧ (s.hostRead 1).getLsbD 2 = s.ovr ∧
    (s.hostRead 1).getLsbD 3 = false ∧ (s.hostRead 1).getLsbD 4 = s.rhV ∧ (s.hostRead 1).getLsbD 5 = s.tV ∧
    (s.hostRead 1).getLsbD 6 = s.uregV ∧ (s.hostRead 1).getLsbD 7 = s.snV ∧
    ∀ j, 8 ≤ j → (s.hostRead 1).getLsbD j = false

/-- R61: a host read changes no register and no controller state; the model keeps what was read (log entry 13), which is no
value where the register was never written (R44, I15; log entry 9). -/
def Obligations.HostReadChangesNothing : Prop :=
  ∀ (s : State) (a : HAddr) (rest : List HostLine),
    s.hostMovesNext = true → s.prog = .hr a :: rest →
      step s = .next { s with
        prog := rest, moves := s.moves.tail, reads := s.reads ++ [{ addr := a, value := s.readValue a }] }

/-- R44, R24: which reads give the host program no value; every other read gives it the register's word (R61). That a read
of a register never written gives none is the model's form of I15 (log entry 9). -/
def Obligations.UnwrittenResultReadsAreMarked : Prop :=
  ∀ (s : State) (a : HAddr),
    (s.readValue a = none ↔
      (s.rhV = false ∧ (a = 4 ∨ a = 5)) ∨ (s.tV = false ∧ (a = 6 ∨ a = 7)) ∨ (s.uregV = false ∧ a = 8) ∨
        (s.snV = false ∧ (a = 9 ∨ a = 10))) ∧
    (s.readValue a = none ∨ s.readValue a = some (s.hostRead a))

/-- R25: a STATUS write clears ILL and OVR where the word has a 1, and changes nothing else. -/
def Obligations.StatusWriteClearsIllAndOvr : Prop :=
  ∀ (s : State) (v : Word) (rest : List HostLine),
    s.hostMovesNext = true → s.prog = .hw haddrStatus v :: rest →
      step s = .next { s with
        ill := if v.getLsbD 1 then false else s.ill, ovr := if v.getLsbD 2 then false else s.ovr,
        prog := rest, moves := s.moves.tail }

/-- R62, R22, R35: a write to any other address is ignored. -/
def Obligations.OtherWritesAreIgnored : Prop :=
  ∀ (s : State) (a : HAddr) (v : Word) (rest : List HostLine),
    s.hostMovesNext = true → s.prog = .hw a v :: rest → a ≠ 0 → a ≠ 1 →
      step s = .next { s with prog := rest, moves := s.moves.tail }

/-- R92: `wait_idle` reads STATUS and ends when BUSY reads 0; the read-modify-write line writes
`UREG.WR ((u & ~clr) | set)` exactly when the value read before it, ERR in R92's expansion, is 0. That this conditional line
is one step and takes `e` to be the value of the host's last read, and does not write where there is none, is the model's
form of R92 (log entry 14); where UREG was never written, `u` is a free value (log entry 9). -/
def Obligations.WaitIdleAndReadModifyWrite : Prop :=
  ∀ (s : State) (rest : List HostLine), s.hostMovesNext = true →
    (s.prog = .waitIdle :: rest →
      step s = .next { s with
        prog := if s.seq = .idle then rest else .waitIdle :: rest, moves := s.moves.tail,
        reads := s.reads ++ [{ addr := 1, value := some (s.hostRead 1) }] }) ∧
    (∀ (clr set : Byte) (before : List HostRead) (e : HostRead),
      s.prog = .rmwUreg clr set :: rest → s.reads = before ++ [e] → e.value = some 0 →
      let u := if s.uregV then s.ureg else Config.freeByte s.draws
      step s = .next { s with
        prog := .hw 0 (((((u &&& ~~~clr) ||| set).setWidth 32) <<< 8) ||| 0xE6) :: .waitIdle :: rest,
        moves := s.moves.tail, draws := if s.uregV then s.draws else s.draws + 1,
        reads := s.reads ++ [{ addr := 8, value := s.readValue 8 }] }) ∧
    (∀ (clr set : Byte), s.prog = .rmwUreg clr set :: rest →
      (s.reads = [] ∨ ∃ before e, s.reads = before ++ [e] ∧ e.value ≠ some 0) →
      step s = .next { s with
        prog := rest, moves := s.moves.tail,
        reads := s.reads ++ [{ addr := 8, value := s.readValue 8 }] })

/-! ### The sequencer and the bus -/

/-- R104: with no call pending, the sequencer's step at a micro-step that is not the Commit issues that micro-step's call
and changes nothing else. -/
def Obligations.SequencerIssuesTheListedCall : Prop :=
  ∀ (op : Op) (n : Nat) (m : Micro) (s : State), s.atMicro op n → (listingOf op)[n]? = some m →
    (∀ what, m ≠ .commit what) → ∃ c, m.call s = some c ∧ exec (instrOf op s.opnd) s = .next { s with req := some c }

/-- R110: the answer to an accumulated write: NACK adds ERR_ACK, COLL adds COLL_FLAG, ACK adds nothing; the listing goes
on to its next micro-step whatever acc holds (R111). -/
def Obligations.AccumulatedWriteAddsItsFlag : Prop :=
  ∀ (op : Op) (n next : Nat) (b : SendByte) (sent : Byte) (s : State),
    s.waits op n (.write sent) → (listingOf op)[n]? = some (.writeAcc b next) →
      exec (instrOf op s.opnd) s = .next { s with
        req := none, trace := s.trace ++ [.write sent s.busIn.resp],
        acc := match s.busIn.resp with
          | .ack => s.acc
          | .nack => s.acc ||| 0b0001#4
          | .coll => s.acc ||| errBit s.params.collFlag,
        seq := .run op next }

/-- R109: a read stores the byte the bus agent answered where its listing says and sets no flag. -/
def Obligations.BusReadStoresItsByte : Prop :=
  ∀ (op : Op) (n next : Nat) (p : Policy) (dst : ReadDest) (s : State),
    s.waits op n (.read p) → (listingOf op)[n]? = some (.read p dst next) →
      exec (instrOf op s.opnd) s = .next
        { s.store dst s.busIn.byte with
          req := none, trace := s.trace ++ [.read p s.busIn.byte], seq := .run op next }

/-- R112, R105, R106: the completion of a delay, of a begin and of an end changes no register. -/
def Obligations.BeginEndAndDelayChangeNoRegister : Prop :=
  ∀ (op : Op) (n next : Nat) (s : State),
    ((listingOf op)[n]? = some (.busBegin next) → s.waits op n .busBegin →
      exec (instrOf op s.opnd) s = .next { s with
        req := none, trace := s.trace ++ [.busBegin], seq := .run op next }) ∧
    ((listingOf op)[n]? = some (.busEnd next) → s.waits op n .busEnd →
      exec (instrOf op s.opnd) s = .next { s with
        req := none, trace := s.trace ++ [.busEnd], seq := .run op next }) ∧
    (∀ d, (listingOf op)[n]? = some (.delay d next) → s.waits op n (.delay d) →
      exec (instrOf op s.opnd) s = .next { s with
        req := none, trace := s.trace ++ [.delay d], seq := .run op next })

/-- R152 s4, R156, R157: a polling attempt. `k` counts it; ACK goes to the reads, a failed attempt that is not the last to
the wait, and the last to ERR_TIMEOUT and then to the reads or, with SKIP, to the end. Its answer is not accumulated. -/
def Obligations.PollingAttemptBranches : Prop :=
  ∀ (kind : Kind) (imm8 sent : Byte) (s : State),
    s.waits (opOf (pollCommand kind imm8)) 4 (.write sent) →
      exec (pollCommand kind imm8) s = .next { s with
        req := none, trace := s.trace ++ [.write sent s.busIn.resp], k := s.k + 1,
        ready := decide (s.busIn.resp = .ack),
        acc := if s.busIn.resp = .ack ∨ (s.k + 1).toNat < 200 then s.acc else s.acc ||| 0b0010#4,
        seq := .run (opOf (pollCommand kind imm8))
          (if s.busIn.resp = .ack then 6 else if (s.k + 1).toNat < 200 then 5
           else if s.params.timeoutReads = .continue then 6 else 10) }

/-! ### Commit of each command -/

/-- R140 s8, R133, R113: UREG.RD publishes the received byte, its valid bit and its error code, whatever the checksum. -/
def Obligations.UregRdCommitPublishesTheByte : Prop :=
  ∀ (imm8 : Byte) (s : State), s.atMicro .uregRd 8 →
    exec (.uregRd imm8) s = .next { s with
      ureg := s.d0, uregV := true,
      acc := if crc8 [s.d0] = s.c then s.acc else s.acc ||| 0b0100#4,
      err := if crc8 [s.d0] = s.c then s.acc else s.acc ||| 0b0100#4,
      seq := .idle }

/-- R143 s5, R144, R190 s5, R191, R113: UREG.WR and SRST publish their error code and nothing else. -/
def Obligations.UregWrAndSrstCommitPublishOnlyErr : Prop :=
  ∀ (imm8 : Byte) (s : State),
    (s.atMicro .uregWr 5 → exec (.uregWr imm8) s = .next { s with err := s.acc, seq := .idle }) ∧
    (s.atMicro .srst 5 → exec (.srst imm8) s = .next { s with err := s.acc, seq := .idle })

/-- R152 s11, R159 to R163: MEAS.RH publishes the raw measurand, the exact humidity numerator, its valid bit, ATTEMPTS and
its error code. -/
def Obligations.MeasRhCommitPublishesHumidity : Prop :=
  ∀ (imm8 : Byte) (s : State), s.atMicro .measRh 11 →
    let bad := crcIn s.params.crcOrder [s.d0, s.d1] ≠ s.c
    let flags := if bad then s.acc ||| 0b0100#4 else s.acc
    exec (.measRh imm8) s = .next { s with
      rhRaw := s.d0 ++ s.d1,
      rhVal := BitVec.ofInt 32 (125 * (((s.d0 ++ s.d1) &&& 0xFFFC#16).toNat : Int) - 393216),
      rhV := true, attempts := s.k, acc := flags, err := flags, seq := .idle }

/-- R152 s11, R159 to R162, R164: MEAS.T publishes the raw measurand, the exact temperature numerator, its valid bit,
ATTEMPTS and its error code. -/
def Obligations.MeasTCommitPublishesTemperature : Prop :=
  ∀ (imm8 : Byte) (s : State), s.atMicro .measT 11 →
    let bad := crcIn s.params.crcOrder [s.d0, s.d1] ≠ s.c
    let flags := if bad then s.acc ||| 0b0100#4 else s.acc
    exec (.measT imm8) s = .next { s with
      tRaw := s.d0 ++ s.d1,
      tVal := BitVec.ofInt 32 (17572 * (((s.d0 ++ s.d1) &&& 0xFFFC#16).toNat : Int) - 307036160),
      tV := true, attempts := s.k, acc := flags, err := flags, seq := .idle }

/-- R152 s12, R158: after a timeout with SKIP a polled measurement publishes ATTEMPTS and its error code only. -/
def Obligations.SkippedMeasurementCommitsAttemptsOnly : Prop :=
  ∀ (kind : Kind) (imm8 : Byte) (s : State), s.atMicro (opOf (pollCommand kind imm8)) 12 →
    exec (pollCommand kind imm8) s = .next { s with attempts := s.k, err := s.acc, seq := .idle }

/-- R166 s9, R167: a hold-master measurement publishes what a polled one does, but leaves ATTEMPTS unchanged. -/
def Obligations.HoldCommitsLeaveAttempts : Prop :=
  ∀ (imm8 : Byte) (s : State),
    let bad := crcIn s.params.crcOrder [s.d0, s.d1] ≠ s.c
    let flags := if bad then s.acc ||| 0b0100#4 else s.acc
    let v := (((s.d0 ++ s.d1) &&& 0xFFFC#16).toNat : Int)
    (s.atMicro .measRhHold 9 → exec (.measRhHold imm8) s = .next { s with
      rhRaw := s.d0 ++ s.d1, rhVal := BitVec.ofInt 32 (125 * v - 393216), rhV := true,
      acc := flags, err := flags, seq := .idle }) ∧
    (s.atMicro .measTHold 9 → exec (.measTHold imm8) s = .next { s with
      tRaw := s.d0 ++ s.d1, tVal := BitVec.ofInt 32 (17572 * v - 307036160), tV := true,
      acc := flags, err := flags, seq := .idle })

/-- R183, R184: SN.RD publishes all eight positions at once, its valid bit and its error code, with no validation. -/
def Obligations.SnRdCommitPublishesEightBytes : Prop :=
  ∀ (imm8 : Byte) (s : State), s.atMicro .snRd 28 →
    exec (.snRd imm8) s = .next { s with sn := s.snT, snV := true, err := s.acc, seq := .idle }

/-- R170 (g): the hold-master and polling strategies give the same RAW, VAL and error code for the same three bytes and
the same accumulated flags. -/
def Obligations.StrategiesAgreeOnTheSameBytes : Prop :=
  ∀ (kind : Kind) (imm8 : Byte) (s p h : State),
    exec (pollCommand kind imm8) { s with seq := .run (opOf (pollCommand kind imm8)) 11, req := none } = .next p →
    exec (holdCommand kind imm8) { s with seq := .run (opOf (holdCommand kind imm8)) 9, req := none } = .next h →
      p.rhRaw = h.rhRaw ∧ p.rhVal = h.rhVal ∧ p.tRaw = h.tRaw ∧ p.tVal = h.tVal ∧ p.err = h.err ∧ h.attempts = s.attempts

/-! ### Whole operations: what crosses the bus and what is published -/

/-- R140: UREG.RD from the host's write to its Commit, for every row of bus answers. -/
def Obligations.UregRdRunsItsListing : Prop :=
  ∀ (s : State) (w : Word) (imm8 : Byte) (lines : List HostLine) (rest : List Move) (a0 a1 a2 a3 a4 a5 a6 a7 : BusAnswer),
    s.seq = .idle → s.req = none → s.prog = .hw haddrCmd w :: lines → decode w = .legal (.uregRd imm8) →
    s.moves = .host :: (callMoves [a0, a1, a2, a3, a4, a5, a6, a7] ++ .sequencer :: rest) →
      let written := respFlags s.params a1.resp ||| respFlags s.params a2.resp ||| respFlags s.params a4.resp
      let flags := if crc8 [a5.byte] = a6.byte then written else written ||| 0b0100#4
      Sys2Proof.core.run 18 s = .next { s with
        prog := lines, moves := rest, lastOp := 0xE7, opnd := imm8, k := 0, ready := false,
        d0 := a5.byte, c := a6.byte, busIn := a7, acc := flags, err := flags, ureg := a5.byte, uregV := true,
        trace := s.trace ++ [.busBegin, .write 0x80 a1.resp, .write 0xE7 a2.resp, .busBegin, .write 0x81 a4.resp,
          .read .ack a5.byte, .read .nack a6.byte, .busEnd] }

/-- R143, R144: UREG.WR v from the host's write to its Commit. -/
def Obligations.UregWrRunsItsListing : Prop :=
  ∀ (s : State) (w : Word) (v : Byte) (lines : List HostLine) (rest : List Move) (a0 a1 a2 a3 a4 : BusAnswer),
    s.seq = .idle → s.req = none → s.prog = .hw haddrCmd w :: lines → decode w = .legal (.uregWr v) →
    s.moves = .host :: (callMoves [a0, a1, a2, a3, a4] ++ .sequencer :: rest) →
      let flags := respFlags s.params a1.resp ||| respFlags s.params a2.resp ||| respFlags s.params a3.resp
      Sys2Proof.core.run 12 s = .next { s with
        prog := lines, moves := rest, lastOp := 0xE6, opnd := v, k := 0, ready := false, busIn := a4,
        acc := flags, err := flags,
        trace := s.trace ++ [.busBegin, .write 0x80 a1.resp, .write 0xE6 a2.resp, .write v a3.resp, .busEnd] }

/-- R190 to R192: SRST from the host's write to its Commit, which comes after the settle wait has completed. -/
def Obligations.SrstRunsItsListing : Prop :=
  ∀ (s : State) (w : Word) (imm8 : Byte) (lines : List HostLine) (rest : List Move) (a0 a1 a2 a3 : BusAnswer),
    s.seq = .idle → s.req = none → s.prog = .hw haddrCmd w :: lines → decode w = .legal (.srst imm8) →
    s.moves = .host :: (callMoves [a0, a1, a2, a3] ++ .sequencer :: .timer :: .sequencer :: rest) →
      let flags := respFlags s.params a1.resp ||| respFlags s.params a2.resp
      Sys2Proof.core.run 12 s = .next { s with
        prog := lines, moves := rest, lastOp := 0xFE, opnd := imm8, k := 0, ready := false, busIn := a3,
        acc := flags, err := flags,
        trace := s.trace ++ [.busBegin, .write 0x80 a1.resp, .write 0xFE a2.resp, .busEnd, .delay .settleDelay] }

/-- R166, R167: a hold-master measurement from the host's write to its Commit. -/
def Obligations.HoldMeasurementRunsItsListing : Prop :=
  ∀ (kind : Kind) (s : State) (w : Word) (imm8 : Byte) (lines : List HostLine) (rest : List Move)
    (a0 a1 a2 a3 a4 a5 a6 a7 a8 : BusAnswer),
    s.seq = .idle → s.req = none → s.prog = .hw haddrCmd w :: lines → decode w = .legal (holdCommand kind imm8) →
    s.moves = .host :: (callMoves [a0, a1, a2, a3, a4, a5, a6, a7, a8] ++ .sequencer :: rest) →
      let written := respFlags s.params a1.resp ||| respFlags s.params a2.resp ||| respFlags s.params a4.resp
      let flags := if crcIn s.params.crcOrder [a5.byte, a6.byte] = a7.byte then written else written ||| 0b0100#4
      let v := (((a5.byte ++ a6.byte) &&& 0xFFFC#16).toNat : Int)
      Sys2Proof.core.run 20 s = .next { s with
        prog := lines, moves := rest, lastOp := (match kind with | .rh => 0xE5 | .t => 0xE3), opnd := imm8,
        k := 0, ready := false, d0 := a5.byte, d1 := a6.byte, c := a7.byte, busIn := a8, acc := flags, err := flags,
        rhRaw := (match kind with | .rh => a5.byte ++ a6.byte | .t => s.rhRaw),
        rhVal := (match kind with | .rh => BitVec.ofInt 32 (125 * v - 393216) | .t => s.rhVal),
        rhV := (match kind with | .rh => true | .t => s.rhV),
        tRaw := (match kind with | .rh => s.tRaw | .t => a5.byte ++ a6.byte),
        tVal := (match kind with | .rh => s.tVal | .t => BitVec.ofInt 32 (17572 * v - 307036160)),
        tV := (match kind with | .rh => s.tV | .t => true),
        trace := s.trace ++ [.busBegin, .write 0x80 a1.resp,
          .write (match kind with | .rh => 0xE5 | .t => 0xE3) a2.resp, .busBegin, .write 0x81 a4.resp,
          .read .ack a5.byte, .read .ack a6.byte, .read .nack a7.byte, .busEnd] }

/-- R180 to R185: SN.RD from the host's write to its Commit: the interleaving of both banks, the acknowledge policies, and
an error code that is the union of the eight write answers. -/
def Obligations.SnRdRunsBothBanks : Prop :=
  ∀ (s : State) (w : Word) (imm8 : Byte) (lines : List HostLine) (rest : List Move)
    (a0 a1 a2 a3 a4 a5 b0 b1 b2 b3 b4 b5 b6 b7 e0 g0 g1 g2 g3 g4 g5 c0 c1 c2 c3 c4 c5 e1 : BusAnswer),
    s.seq = .idle → s.req = none → s.prog = .hw haddrCmd w :: lines → decode w = .legal (.snRd imm8) →
    s.moves = .host :: (callMoves [a0, a1, a2, a3, a4, a5, b0, b1, b2, b3, b4, b5, b6, b7, e0,
      g0, g1, g2, g3, g4, g5, c0, c1, c2, c3, c4, c5, e1] ++ .sequencer :: rest) →
      let flags := respFlags s.params a1.resp ||| respFlags s.params a2.resp ||| respFlags s.params a3.resp |||
        respFlags s.params a5.resp ||| respFlags s.params g1.resp ||| respFlags s.params g2.resp |||
        respFlags s.params g3.resp ||| respFlags s.params g5.resp
      let bytes : SnBytes := {
        b5 := b0.byte, b4 := b2.byte, b3 := b4.byte, b2 := b6.byte,
        b1 := c0.byte, b0 := c1.byte, b7 := c3.byte, b6 := c4.byte }
      Sys2Proof.core.run 58 s = .next { s with
        prog := lines, moves := rest, lastOp := 0xFA, opnd := imm8, k := 0, ready := false, busIn := e1,
        acc := flags, err := flags, snT := bytes, sn := bytes, snV := true,
        trace := s.trace ++ [.busBegin, .write 0x80 a1.resp, .write 0xFA a2.resp, .write 0x0F a3.resp, .busBegin,
          .write 0x81 a5.resp, .read .ack b0.byte, .read .ack b1.byte, .read .ack b2.byte, .read .ack b3.byte,
          .read .ack b4.byte, .read .ack b5.byte, .read .ack b6.byte, .read .nack b7.byte, .busEnd,
          .busBegin, .write 0x80 g1.resp, .write 0xFC g2.resp, .write 0xC9 g3.resp, .busBegin,
          .write 0x81 g5.resp, .read .ack c0.byte, .read .ack c1.byte, .read .ack c2.byte, .read .ack c3.byte,
          .read .ack c4.byte, .read .nack c5.byte, .busEnd] }

/-- R152, R155, R156, R159 to R164: a polled measurement that succeeds at attempt `fails.length + 1`, for any number of
failed attempts the budget allows (NACK or COLL each), and for every other answer. That a success on attempt 200 leaves
ATTEMPTS = 200 with no ERR_TIMEOUT follows R157 and R159 against R34's sentence (log entry 20). -/
def Obligations.PolledMeasurementSucceeds : Prop :=
  ∀ (kind : Kind) (s : State) (w : Word) (imm8 : Byte) (lines : List HostLine) (rest : List Move)
    (fails : List (BusAnswer × BusAnswer)) (a0 a1 a2 b0 b1 r0 r1 r2 e : BusAnswer),
    s.seq = .idle → s.req = none → s.prog = .hw haddrCmd w :: lines → decode w = .legal (pollCommand kind imm8) →
    fails.length < 200 → (∀ p ∈ fails, p.2.resp ≠ .ack) → b1.resp = .ack →
    s.moves = .host :: (callMoves [a0, a1, a2] ++ fails.flatMap failedAttemptMoves ++
      callMoves [b0, b1, r0, r1, r2, e] ++ .sequencer :: rest) →
      let written := respFlags s.params a1.resp ||| respFlags s.params a2.resp
      let flags := if crcIn s.params.crcOrder [r0.byte, r1.byte] = r2.byte then written else written ||| 0b0100#4
      let v := (((r0.byte ++ r1.byte) &&& 0xFFFC#16).toNat : Int)
      Sys2Proof.core.run (20 + 6 * fails.length) s = .next { s with
        prog := lines, moves := rest, lastOp := (match kind with | .rh => 0xF5 | .t => 0xF3), opnd := imm8,
        k := BitVec.ofNat 8 (fails.length + 1), ready := true, d0 := r0.byte, d1 := r1.byte, c := r2.byte, busIn := e,
        acc := flags, err := flags, attempts := BitVec.ofNat 8 (fails.length + 1),
        rhRaw := (match kind with | .rh => r0.byte ++ r1.byte | .t => s.rhRaw),
        rhVal := (match kind with | .rh => BitVec.ofInt 32 (125 * v - 393216) | .t => s.rhVal),
        rhV := (match kind with | .rh => true | .t => s.rhV),
        tRaw := (match kind with | .rh => s.tRaw | .t => r0.byte ++ r1.byte),
        tVal := (match kind with | .rh => s.tVal | .t => BitVec.ofInt 32 (17572 * v - 307036160)),
        tV := (match kind with | .rh => s.tV | .t => true),
        trace := s.trace ++ [.busBegin, .write 0x80 a1.resp,
          .write (match kind with | .rh => 0xF5 | .t => 0xF3) a2.resp] ++ fails.flatMap failedAttemptEvents ++
          [.busBegin, .write 0x81 .ack, .read .ack r0.byte, .read .ack r1.byte, .read .nack r2.byte, .busEnd] }

/-- R157, R158: a polled measurement whose 200 attempts all fail, with CONTINUE: ERR_TIMEOUT, ATTEMPTS = 200, 199 delays,
and the reads run as after a success. -/
def Obligations.PolledMeasurementTimesOutAndReads : Prop :=
  ∀ (kind : Kind) (s : State) (w : Word) (imm8 : Byte) (lines : List HostLine) (rest : List Move)
    (fails : List (BusAnswer × BusAnswer)) (a0 a1 a2 b0 b1 r0 r1 r2 e : BusAnswer),
    s.seq = .idle → s.req = none → s.prog = .hw haddrCmd w :: lines → decode w = .legal (pollCommand kind imm8) →
    s.params.timeoutReads = .continue →
    fails.length = 199 → (∀ p ∈ fails, p.2.resp ≠ .ack) → b1.resp ≠ .ack →
    s.moves = .host :: (callMoves [a0, a1, a2] ++ fails.flatMap failedAttemptMoves ++
      callMoves [b0, b1, r0, r1, r2, e] ++ .sequencer :: rest) →
      let written := respFlags s.params a1.resp ||| respFlags s.params a2.resp ||| 0b0010#4
      let flags := if crcIn s.params.crcOrder [r0.byte, r1.byte] = r2.byte then written else written ||| 0b0100#4
      let v := (((r0.byte ++ r1.byte) &&& 0xFFFC#16).toNat : Int)
      Sys2Proof.core.run 1214 s = .next { s with
        prog := lines, moves := rest, lastOp := (match kind with | .rh => 0xF5 | .t => 0xF3), opnd := imm8,
        k := 200, ready := false, d0 := r0.byte, d1 := r1.byte, c := r2.byte, busIn := e,
        acc := flags, err := flags, attempts := 200,
        rhRaw := (match kind with | .rh => r0.byte ++ r1.byte | .t => s.rhRaw),
        rhVal := (match kind with | .rh => BitVec.ofInt 32 (125 * v - 393216) | .t => s.rhVal),
        rhV := (match kind with | .rh => true | .t => s.rhV),
        tRaw := (match kind with | .rh => s.tRaw | .t => r0.byte ++ r1.byte),
        tVal := (match kind with | .rh => s.tVal | .t => BitVec.ofInt 32 (17572 * v - 307036160)),
        tV := (match kind with | .rh => s.tV | .t => true),
        trace := s.trace ++ [.busBegin, .write 0x80 a1.resp,
          .write (match kind with | .rh => 0xF5 | .t => 0xF3) a2.resp] ++ fails.flatMap failedAttemptEvents ++
          [.busBegin, .write 0x81 b1.resp, .read .ack r0.byte, .read .ack r1.byte, .read .nack r2.byte, .busEnd] }

/-- R157, R158: a polled measurement whose 200 attempts all fail, with SKIP: the transaction is closed at once, no read, no
validation, and only ERR and ATTEMPTS are published. -/
def Obligations.PolledMeasurementTimesOutAndSkips : Prop :=
  ∀ (kind : Kind) (s : State) (w : Word) (imm8 : Byte) (lines : List HostLine) (rest : List Move)
    (fails : List (BusAnswer × BusAnswer)) (a0 a1 a2 b0 b1 e : BusAnswer),
    s.seq = .idle → s.req = none → s.prog = .hw haddrCmd w :: lines → decode w = .legal (pollCommand kind imm8) →
    s.params.timeoutReads = .skip →
    fails.length = 199 → (∀ p ∈ fails, p.2.resp ≠ .ack) → b1.resp ≠ .ack →
    s.moves = .host :: (callMoves [a0, a1, a2] ++ fails.flatMap failedAttemptMoves ++
      callMoves [b0, b1, e] ++ .sequencer :: rest) →
      let flags := respFlags s.params a1.resp ||| respFlags s.params a2.resp ||| 0b0010#4
      Sys2Proof.core.run 1208 s = .next { s with
        prog := lines, moves := rest, lastOp := (match kind with | .rh => 0xF5 | .t => 0xF3), opnd := imm8,
        k := 200, ready := false, busIn := e, acc := flags, err := flags, attempts := 200,
        trace := s.trace ++ [.busBegin, .write 0x80 a1.resp,
          .write (match kind with | .rh => 0xF5 | .t => 0xF3) a2.resp] ++ fails.flatMap failedAttemptEvents ++
          [.busBegin, .write 0x81 b1.resp, .busEnd] }

/-! ### The CRC and the converter -/

/-- R135: `crc8` is linear over XOR for lists of equal length. -/
def Obligations.CrcIsLinear : Prop :=
  ∀ xs ys : List Byte, xs.length = ys.length →
    crc8 (List.zipWith (fun x y => x ^^^ y) xs ys) = crc8 xs ^^^ crc8 ys

/-- R136: flipping any single data bit of a message of one or two bytes makes a checksum that was right wrong, under
either CRC_ORDER. -/
def Obligations.SingleBitFlipFailsValidation : Prop :=
  ∀ (order : CrcOrder) (x y c : Byte) (j : Fin 8),
    (validate order [x] c = .noError → validate order [x ^^^ (1#8 <<< j.val)] c = .checksumError) ∧
    (validate order [x, y] c = .noError →
      validate order [x ^^^ (1#8 <<< j.val), y] c = .checksumError ∧
      validate order [x, y ^^^ (1#8 <<< j.val)] c = .checksumError)

/-- R163, R164, R162, R29, R31: the stored words are the exact numerators, in the ranges the spec gives, with no overflow:
`v` is a multiple of 4 at most 65532. -/
def Obligations.ConversionIsExactAndInRange : Prop :=
  ∀ raw : Raw,
    let v : Int := (maskStatus raw).toNat
    (maskStatus raw).toNat % 4 = 0 ∧ (maskStatus raw).toNat ≤ 65532 ∧
    (convert .rh (maskStatus raw)).toInt = 125 * v - 393216 ∧
    (convert .t (maskStatus raw)).toInt = 17572 * v - 307036160 ∧
    -393216 ≤ (convert .rh (maskStatus raw)).toInt ∧ (convert .rh (maskStatus raw)).toInt ≤ 7798284 ∧
    -307036160 ≤ (convert .t (maskStatus raw)).toInt ∧ (convert .t (maskStatus raw)).toInt ≤ 844492144

/-- R162: the mask leaves a multiple of 4 in 0..65532, and raw measurands that differ only in their low 2 bits convert to
the identical value. -/
def Obligations.StatusBitsDoNotChangeTheValue : Prop :=
  (∀ raw : Raw, maskStatus raw = raw &&& 0xFFFC#16 ∧ (maskStatus raw).toNat % 4 = 0 ∧ (maskStatus raw).toNat ≤ 65532) ∧
  ∀ (kind : Kind) (x y : Raw), x >>> 2 = y >>> 2 → convert kind (maskStatus x) = convert kind (maskStatus y)

/-- R172: the stored values are linear in the masked raw input. -/
def Obligations.ConversionIsLinear : Prop :=
  ∀ x y : Raw,
    (convert .rh (maskStatus y)).toInt - (convert .rh (maskStatus x)).toInt =
      125 * (((maskStatus y).toNat : Int) - (maskStatus x).toNat) ∧
    (convert .t (maskStatus y)).toInt - (convert .t (maskStatus x)).toInt =
      17572 * (((maskStatus y).toNat : Int) - (maskStatus x).toNat)

/-! ### Whole-machine rules -/

/-- R43: the machine after controller reset. -/
def Obligations.ResetLeavesEveryRegisterZero : Prop :=
  State.reset.seq = .idle ∧ (∀ a, State.reset.hostRead a = 0) ∧ State.reset.sn = SnBytes.zero ∧
  State.reset.acc = 0 ∧ State.reset.opnd = 0 ∧ State.reset.k = 0 ∧ State.reset.ready = false ∧
  State.reset.d0 = 0 ∧ State.reset.d1 = 0 ∧ State.reset.c = 0 ∧ State.reset.snT = SnBytes.zero ∧
  State.reset.req = none

/-- R220, R221: controller reset, from any state: an operation is abandoned, no call is issued, the trace ends where it
was. That the agents' lists and the parameters stay is the model's (log entry 12). -/
def Obligations.ControllerResetAbandonsTheOperation : Prop :=
  ∀ (s : State) (rest : List Move), s.moves = .reset :: rest →
    step s = .next { State.reset with
      params := s.params, moves := rest, agents := s.agents, prog := s.prog, busIn := s.busIn, draws := s.draws,
      trace := s.trace, reads := s.reads }

/-- The controller's invariant holds after controller reset. -/
def Obligations.InvariantHoldsAtReset : Prop := State.reset.Inv

/-- R26, R34, R38, R44, R70, R104, R157, R163, R164, R201, R205: every step of every agent keeps the controller's
invariant. -/
def Obligations.EveryStepKeepsTheInvariant : Prop :=
  ∀ s t : State, s.Inv → step s = .next t → t.Inv

/-- R200: no condition stops the controller: from a state that meets the invariant, every step answers a next state. -/
def Obligations.NoStepStops : Prop :=
  ∀ s : State, s.Inv → ∃ t, step s = .next t

/-- R116, R108, R112: an operation that runs reaches its Commit after a bounded number of steps (606 micro-steps of two
steps each, and the Commit), where the controller's agents go on and every call is answered, whatever the answers are; and
where the host program has no line left, the run is then over (R233). That no listed move lets the operation go on is the
model's default order (log entry 1), its answers are free values (log entry 3), and that they come is the fairness of R108 and
R112, `agents = fair` (log entry 16). -/
def Obligations.EveryOperationReachesCommit : Prop :=
  ∀ s : State, s.Inv → s.busy = true → s.moves = [] → s.agents = .fair →
    ∃ n t, n ≤ 1213 ∧ Sys2Proof.core.run n s = .next t ∧ t.seq = .idle ∧ t.req = none ∧ t.moves = [] ∧
      t.prog = s.prog ∧ (s.prog = [] → t.runOver = true)

/-- R67 (b), R224: no host register but STATUS and LAST_OP changes in a step that is neither a Commit nor a controller
reset; and LAST_OP changes in no step of a busy controller (R103). -/
def Obligations.ResultsChangeOnlyAtCommit : Prop :=
  ∀ s t : State, step s = .next t → s.resetsNext = false →
    ((s.busy = false ∨ t.busy = true) → ∀ a : HAddr, a ≠ 1 → a ≠ 3 → t.hostRead a = s.hostRead a) ∧
    (s.busy = true → t.hostRead 3 = s.hostRead 3)

/-- R24, R141, R144, R165, R166, R183, R191: the frame of each command. A step of it changes no host register but STATUS,
ERR, LAST_OP and its outputs; in STATUS it leaves ILL and the valid bits of the other groups; and it changes nothing of the
model's own fields but the trace. -/
def Obligations.CommandsChangeOnlyTheirOutputs : Prop :=
  ∀ (i : Instr) (s t : State), exec i s = .next t →
    (∀ a : HAddr, a ≠ 1 → a ≠ 2 → a ≠ 3 → a ∉ (opOf i).outputs → t.hostRead a = s.hostRead a) ∧
    t.ill = s.ill ∧
    (haddrRhRaw ∉ (opOf i).outputs → t.rhV = s.rhV) ∧ (haddrTRaw ∉ (opOf i).outputs → t.tV = s.tV) ∧
    (haddrUreg ∉ (opOf i).outputs → t.uregV = s.uregV) ∧ (haddrSnLo ∉ (opOf i).outputs → t.snV = s.snV) ∧
    t.params = s.params ∧ t.moves = s.moves ∧ t.agents = s.agents ∧ t.prog = s.prog ∧ t.busIn = s.busIn ∧
    t.draws = s.draws ∧ t.reads = s.reads

/-- R24: a valid bit that is 1 is cleared by controller reset only, and one that is 0 is set only by the Commit of an
operation that writes its registers. -/
def Obligations.ValidBitsAreSetByCommitClearedByReset : Prop :=
  ∀ s t : State, step s = .next t → s.resetsNext = false →
    (s.rhV = true → t.rhV = true) ∧ (s.tV = true → t.tV = true) ∧
    (s.uregV = true → t.uregV = true) ∧ (s.snV = true → t.snV = true) ∧
    (s.rhV = false → t.rhV = true → t.seq = .idle ∧ ∃ op n, s.seq = .run op n ∧ (op = .measRh ∨ op = .measRhHold)) ∧
    (s.tV = false → t.tV = true → t.seq = .idle ∧ ∃ op n, s.seq = .run op n ∧ (op = .measT ∨ op = .measTHold)) ∧
    (s.uregV = false → t.uregV = true → t.seq = .idle ∧ ∃ n, s.seq = .run .uregRd n) ∧
    (s.snV = false → t.snV = true → t.seq = .idle ∧ ∃ n, s.seq = .run .snRd n)

/-- R117, R221: the bus trace is only ever appended to, one event a step, by a step that answers a pending call. -/
def Obligations.TraceIsOnlyAppendedTo : Prop :=
  ∀ s t : State, step s = .next t →
    t.trace = s.trace ∨ (∃ c e, s.req = some c ∧ t.req = none ∧ t.trace = s.trace ++ [e])

/-- R70, R104, R115, R229, R233: a pending call is not replaced: it stays until it is answered or abandoned by controller
reset. And a stuck run stays stuck: where no agent answers any more (log entry 16) and no controller reset comes, after any
number of steps the same call is pending, the operation has not gone on, BUSY reads 1, no result has changed, and the run is
not over, whatever the host does. -/
def Obligations.APendingCallIsNotReplaced : Prop :=
  (∀ (s t : State) (c : Call), s.req = some c → step s = .next t → t.req = some c ∨ t.req = none) ∧
  (∀ (s : State) (n : Nat), s.stuck = true →
    ∃ t, Sys2Proof.core.run n s = .next t ∧ t.stuck = true ∧ t.req = s.req ∧ t.seq = s.seq ∧
      t.observation.trace = s.observation.trace ∧ (∀ a : HAddr, a ≠ 1 → t.hostRead a = s.hostRead a) ∧
      (t.hostRead 1).getLsbD 0 = true ∧ t.runOver = false)

/-- R157, R201: with COLL_FLAG other than TIMEOUT, the Commit of a polled measurement publishes ERR_TIMEOUT exactly when
its last attempt failed and it was the 200th; ATTEMPTS is then 200. -/
def Obligations.TimeoutFlagMeansTheBudgetIsSpent : Prop :=
  ∀ (kind : Kind) (imm8 : Byte) (n : Nat) (s t : State), s.Inv → s.params.collFlag ≠ .timeout →
    s.seq = .run (opOf (pollCommand kind imm8)) n → exec (pollCommand kind imm8) s = .next t → t.seq = .idle →
      (t.err.getLsbD 1 = true ↔ s.ready = false ∧ s.k.toNat = 200) ∧
      (t.err.getLsbD 1 = true → t.hostRead 11 = 200)

/-- R201, R144, R185, R191: with the default COLL_FLAG, UREG.WR, SN.RD and SRST publish no flag but ERR_ACK, UREG.RD and the
hold-master measurements none but ERR_ACK and ERR_CRC; and no operation publishes ERR_UNIT. -/
def Obligations.OperationsPublishOnlyTheirFlags : Prop :=
  ∀ (i : Instr) (n : Nat) (s t : State), s.Inv → s.params.collFlag = .ack →
    s.seq = .run (opOf i) n → exec i s = .next t → t.seq = .idle →
      t.err.getLsbD 3 = false ∧
      ((opOf i).polls = false → t.err.getLsbD 1 = false) ∧
      ((opOf i).validates = false → t.err.getLsbD 2 = false)
end

