-- ==== Sys2Proof/Laws/State.lean ====
section
/-! SUPPORT. The fields of the state after each named update: one lemma a field, so that no later proof unfolds a record
update. -/

namespace Sys2Proof.Machine

@[simp] theorem State.writeStatus_ill (v : Word) (s : State) : (s.writeStatus v).ill = (s.ill && !v.getLsbD 1) := rfl
@[simp] theorem State.writeStatus_ovr (v : Word) (s : State) : (s.writeStatus v).ovr = (s.ovr && !v.getLsbD 2) := rfl
@[simp] theorem State.writeStatus_rhV (v : Word) (s : State) : (s.writeStatus v).rhV = s.rhV := rfl
@[simp] theorem State.writeStatus_tV (v : Word) (s : State) : (s.writeStatus v).tV = s.tV := rfl
@[simp] theorem State.writeStatus_uregV (v : Word) (s : State) : (s.writeStatus v).uregV = s.uregV := rfl
@[simp] theorem State.writeStatus_snV (v : Word) (s : State) : (s.writeStatus v).snV = s.snV := rfl
@[simp] theorem State.writeStatus_err (v : Word) (s : State) : (s.writeStatus v).err = s.err := rfl
@[simp] theorem State.writeStatus_lastOp (v : Word) (s : State) : (s.writeStatus v).lastOp = s.lastOp := rfl
@[simp] theorem State.writeStatus_rhRaw (v : Word) (s : State) : (s.writeStatus v).rhRaw = s.rhRaw := rfl
@[simp] theorem State.writeStatus_rhVal (v : Word) (s : State) : (s.writeStatus v).rhVal = s.rhVal := rfl
@[simp] theorem State.writeStatus_tRaw (v : Word) (s : State) : (s.writeStatus v).tRaw = s.tRaw := rfl
@[simp] theorem State.writeStatus_tVal (v : Word) (s : State) : (s.writeStatus v).tVal = s.tVal := rfl
@[simp] theorem State.writeStatus_ureg (v : Word) (s : State) : (s.writeStatus v).ureg = s.ureg := rfl
@[simp] theorem State.writeStatus_sn (v : Word) (s : State) : (s.writeStatus v).sn = s.sn := rfl
@[simp] theorem State.writeStatus_attempts (v : Word) (s : State) : (s.writeStatus v).attempts = s.attempts := rfl
@[simp] theorem State.writeStatus_seq (v : Word) (s : State) : (s.writeStatus v).seq = s.seq := rfl
@[simp] theorem State.writeStatus_acc (v : Word) (s : State) : (s.writeStatus v).acc = s.acc := rfl
@[simp] theorem State.writeStatus_opnd (v : Word) (s : State) : (s.writeStatus v).opnd = s.opnd := rfl
@[simp] theorem State.writeStatus_k (v : Word) (s : State) : (s.writeStatus v).k = s.k := rfl
@[simp] theorem State.writeStatus_ready (v : Word) (s : State) : (s.writeStatus v).ready = s.ready := rfl
@[simp] theorem State.writeStatus_d0 (v : Word) (s : State) : (s.writeStatus v).d0 = s.d0 := rfl
@[simp] theorem State.writeStatus_d1 (v : Word) (s : State) : (s.writeStatus v).d1 = s.d1 := rfl
@[simp] theorem State.writeStatus_c (v : Word) (s : State) : (s.writeStatus v).c = s.c := rfl
@[simp] theorem State.writeStatus_snT (v : Word) (s : State) : (s.writeStatus v).snT = s.snT := rfl
@[simp] theorem State.writeStatus_req (v : Word) (s : State) : (s.writeStatus v).req = s.req := rfl
@[simp] theorem State.writeStatus_params (v : Word) (s : State) : (s.writeStatus v).params = s.params := rfl
@[simp] theorem State.writeStatus_moves (v : Word) (s : State) : (s.writeStatus v).moves = s.moves := rfl
@[simp] theorem State.writeStatus_agents (v : Word) (s : State) : (s.writeStatus v).agents = s.agents := rfl
@[simp] theorem State.writeStatus_prog (v : Word) (s : State) : (s.writeStatus v).prog = s.prog := rfl
@[simp] theorem State.writeStatus_busIn (v : Word) (s : State) : (s.writeStatus v).busIn = s.busIn := rfl
@[simp] theorem State.writeStatus_draws (v : Word) (s : State) : (s.writeStatus v).draws = s.draws := rfl
@[simp] theorem State.writeStatus_trace (v : Word) (s : State) : (s.writeStatus v).trace = s.trace := rfl
@[simp] theorem State.writeStatus_reads (v : Word) (s : State) : (s.writeStatus v).reads = s.reads := rfl

@[simp] theorem State.setIll_ill (s : State) : (s.setIll).ill = true := rfl
@[simp] theorem State.setIll_ovr (s : State) : (s.setIll).ovr = s.ovr := rfl
@[simp] theorem State.setIll_rhV (s : State) : (s.setIll).rhV = s.rhV := rfl
@[simp] theorem State.setIll_tV (s : State) : (s.setIll).tV = s.tV := rfl
@[simp] theorem State.setIll_uregV (s : State) : (s.setIll).uregV = s.uregV := rfl
@[simp] theorem State.setIll_snV (s : State) : (s.setIll).snV = s.snV := rfl
@[simp] theorem State.setIll_err (s : State) : (s.setIll).err = s.err := rfl
@[simp] theorem State.setIll_lastOp (s : State) : (s.setIll).lastOp = s.lastOp := rfl
@[simp] theorem State.setIll_rhRaw (s : State) : (s.setIll).rhRaw = s.rhRaw := rfl
@[simp] theorem State.setIll_rhVal (s : State) : (s.setIll).rhVal = s.rhVal := rfl
@[simp] theorem State.setIll_tRaw (s : State) : (s.setIll).tRaw = s.tRaw := rfl
@[simp] theorem State.setIll_tVal (s : State) : (s.setIll).tVal = s.tVal := rfl
@[simp] theorem State.setIll_ureg (s : State) : (s.setIll).ureg = s.ureg := rfl
@[simp] theorem State.setIll_sn (s : State) : (s.setIll).sn = s.sn := rfl
@[simp] theorem State.setIll_attempts (s : State) : (s.setIll).attempts = s.attempts := rfl
@[simp] theorem State.setIll_seq (s : State) : (s.setIll).seq = s.seq := rfl
@[simp] theorem State.setIll_acc (s : State) : (s.setIll).acc = s.acc := rfl
@[simp] theorem State.setIll_opnd (s : State) : (s.setIll).opnd = s.opnd := rfl
@[simp] theorem State.setIll_k (s : State) : (s.setIll).k = s.k := rfl
@[simp] theorem State.setIll_ready (s : State) : (s.setIll).ready = s.ready := rfl
@[simp] theorem State.setIll_d0 (s : State) : (s.setIll).d0 = s.d0 := rfl
@[simp] theorem State.setIll_d1 (s : State) : (s.setIll).d1 = s.d1 := rfl
@[simp] theorem State.setIll_c (s : State) : (s.setIll).c = s.c := rfl
@[simp] theorem State.setIll_snT (s : State) : (s.setIll).snT = s.snT := rfl
@[simp] theorem State.setIll_req (s : State) : (s.setIll).req = s.req := rfl
@[simp] theorem State.setIll_params (s : State) : (s.setIll).params = s.params := rfl
@[simp] theorem State.setIll_moves (s : State) : (s.setIll).moves = s.moves := rfl
@[simp] theorem State.setIll_agents (s : State) : (s.setIll).agents = s.agents := rfl
@[simp] theorem State.setIll_prog (s : State) : (s.setIll).prog = s.prog := rfl
@[simp] theorem State.setIll_busIn (s : State) : (s.setIll).busIn = s.busIn := rfl
@[simp] theorem State.setIll_draws (s : State) : (s.setIll).draws = s.draws := rfl
@[simp] theorem State.setIll_trace (s : State) : (s.setIll).trace = s.trace := rfl
@[simp] theorem State.setIll_reads (s : State) : (s.setIll).reads = s.reads := rfl

@[simp] theorem State.setOvr_ill (s : State) : (s.setOvr).ill = s.ill := rfl
@[simp] theorem State.setOvr_ovr (s : State) : (s.setOvr).ovr = true := rfl
@[simp] theorem State.setOvr_rhV (s : State) : (s.setOvr).rhV = s.rhV := rfl
@[simp] theorem State.setOvr_tV (s : State) : (s.setOvr).tV = s.tV := rfl
@[simp] theorem State.setOvr_uregV (s : State) : (s.setOvr).uregV = s.uregV := rfl
@[simp] theorem State.setOvr_snV (s : State) : (s.setOvr).snV = s.snV := rfl
@[simp] theorem State.setOvr_err (s : State) : (s.setOvr).err = s.err := rfl
@[simp] theorem State.setOvr_lastOp (s : State) : (s.setOvr).lastOp = s.lastOp := rfl
@[simp] theorem State.setOvr_rhRaw (s : State) : (s.setOvr).rhRaw = s.rhRaw := rfl
@[simp] theorem State.setOvr_rhVal (s : State) : (s.setOvr).rhVal = s.rhVal := rfl
@[simp] theorem State.setOvr_tRaw (s : State) : (s.setOvr).tRaw = s.tRaw := rfl
@[simp] theorem State.setOvr_tVal (s : State) : (s.setOvr).tVal = s.tVal := rfl
@[simp] theorem State.setOvr_ureg (s : State) : (s.setOvr).ureg = s.ureg := rfl
@[simp] theorem State.setOvr_sn (s : State) : (s.setOvr).sn = s.sn := rfl
@[simp] theorem State.setOvr_attempts (s : State) : (s.setOvr).attempts = s.attempts := rfl
@[simp] theorem State.setOvr_seq (s : State) : (s.setOvr).seq = s.seq := rfl
@[simp] theorem State.setOvr_acc (s : State) : (s.setOvr).acc = s.acc := rfl
@[simp] theorem State.setOvr_opnd (s : State) : (s.setOvr).opnd = s.opnd := rfl
@[simp] theorem State.setOvr_k (s : State) : (s.setOvr).k = s.k := rfl
@[simp] theorem State.setOvr_ready (s : State) : (s.setOvr).ready = s.ready := rfl
@[simp] theorem State.setOvr_d0 (s : State) : (s.setOvr).d0 = s.d0 := rfl
@[simp] theorem State.setOvr_d1 (s : State) : (s.setOvr).d1 = s.d1 := rfl
@[simp] theorem State.setOvr_c (s : State) : (s.setOvr).c = s.c := rfl
@[simp] theorem State.setOvr_snT (s : State) : (s.setOvr).snT = s.snT := rfl
@[simp] theorem State.setOvr_req (s : State) : (s.setOvr).req = s.req := rfl
@[simp] theorem State.setOvr_params (s : State) : (s.setOvr).params = s.params := rfl
@[simp] theorem State.setOvr_moves (s : State) : (s.setOvr).moves = s.moves := rfl
@[simp] theorem State.setOvr_agents (s : State) : (s.setOvr).agents = s.agents := rfl
@[simp] theorem State.setOvr_prog (s : State) : (s.setOvr).prog = s.prog := rfl
@[simp] theorem State.setOvr_busIn (s : State) : (s.setOvr).busIn = s.busIn := rfl
@[simp] theorem State.setOvr_draws (s : State) : (s.setOvr).draws = s.draws := rfl
@[simp] theorem State.setOvr_trace (s : State) : (s.setOvr).trace = s.trace := rfl
@[simp] theorem State.setOvr_reads (s : State) : (s.setOvr).reads = s.reads := rfl

@[simp] theorem State.accumulate_ill (f : BitVec 4) (s : State) : (s.accumulate f).ill = s.ill := rfl
@[simp] theorem State.accumulate_ovr (f : BitVec 4) (s : State) : (s.accumulate f).ovr = s.ovr := rfl
@[simp] theorem State.accumulate_rhV (f : BitVec 4) (s : State) : (s.accumulate f).rhV = s.rhV := rfl
@[simp] theorem State.accumulate_tV (f : BitVec 4) (s : State) : (s.accumulate f).tV = s.tV := rfl
@[simp] theorem State.accumulate_uregV (f : BitVec 4) (s : State) : (s.accumulate f).uregV = s.uregV := rfl
@[simp] theorem State.accumulate_snV (f : BitVec 4) (s : State) : (s.accumulate f).snV = s.snV := rfl
@[simp] theorem State.accumulate_err (f : BitVec 4) (s : State) : (s.accumulate f).err = s.err := rfl
@[simp] theorem State.accumulate_lastOp (f : BitVec 4) (s : State) : (s.accumulate f).lastOp = s.lastOp := rfl
@[simp] theorem State.accumulate_rhRaw (f : BitVec 4) (s : State) : (s.accumulate f).rhRaw = s.rhRaw := rfl
@[simp] theorem State.accumulate_rhVal (f : BitVec 4) (s : State) : (s.accumulate f).rhVal = s.rhVal := rfl
@[simp] theorem State.accumulate_tRaw (f : BitVec 4) (s : State) : (s.accumulate f).tRaw = s.tRaw := rfl
@[simp] theorem State.accumulate_tVal (f : BitVec 4) (s : State) : (s.accumulate f).tVal = s.tVal := rfl
@[simp] theorem State.accumulate_ureg (f : BitVec 4) (s : State) : (s.accumulate f).ureg = s.ureg := rfl
@[simp] theorem State.accumulate_sn (f : BitVec 4) (s : State) : (s.accumulate f).sn = s.sn := rfl
@[simp] theorem State.accumulate_attempts (f : BitVec 4) (s : State) : (s.accumulate f).attempts = s.attempts := rfl
@[simp] theorem State.accumulate_seq (f : BitVec 4) (s : State) : (s.accumulate f).seq = s.seq := rfl
@[simp] theorem State.accumulate_acc (f : BitVec 4) (s : State) : (s.accumulate f).acc = (s.acc ||| f) := rfl
@[simp] theorem State.accumulate_opnd (f : BitVec 4) (s : State) : (s.accumulate f).opnd = s.opnd := rfl
@[simp] theorem State.accumulate_k (f : BitVec 4) (s : State) : (s.accumulate f).k = s.k := rfl
@[simp] theorem State.accumulate_ready (f : BitVec 4) (s : State) : (s.accumulate f).ready = s.ready := rfl
@[simp] theorem State.accumulate_d0 (f : BitVec 4) (s : State) : (s.accumulate f).d0 = s.d0 := rfl
@[simp] theorem State.accumulate_d1 (f : BitVec 4) (s : State) : (s.accumulate f).d1 = s.d1 := rfl
@[simp] theorem State.accumulate_c (f : BitVec 4) (s : State) : (s.accumulate f).c = s.c := rfl
@[simp] theorem State.accumulate_snT (f : BitVec 4) (s : State) : (s.accumulate f).snT = s.snT := rfl
@[simp] theorem State.accumulate_req (f : BitVec 4) (s : State) : (s.accumulate f).req = s.req := rfl
@[simp] theorem State.accumulate_params (f : BitVec 4) (s : State) : (s.accumulate f).params = s.params := rfl
@[simp] theorem State.accumulate_moves (f : BitVec 4) (s : State) : (s.accumulate f).moves = s.moves := rfl
@[simp] theorem State.accumulate_agents (f : BitVec 4) (s : State) : (s.accumulate f).agents = s.agents := rfl
@[simp] theorem State.accumulate_prog (f : BitVec 4) (s : State) : (s.accumulate f).prog = s.prog := rfl
@[simp] theorem State.accumulate_busIn (f : BitVec 4) (s : State) : (s.accumulate f).busIn = s.busIn := rfl
@[simp] theorem State.accumulate_draws (f : BitVec 4) (s : State) : (s.accumulate f).draws = s.draws := rfl
@[simp] theorem State.accumulate_trace (f : BitVec 4) (s : State) : (s.accumulate f).trace = s.trace := rfl
@[simp] theorem State.accumulate_reads (f : BitVec 4) (s : State) : (s.accumulate f).reads = s.reads := rfl

@[simp] theorem State.goto_ill (op : Op) (n : Nat) (s : State) : (s.goto op n).ill = s.ill := rfl
@[simp] theorem State.goto_ovr (op : Op) (n : Nat) (s : State) : (s.goto op n).ovr = s.ovr := rfl
@[simp] theorem State.goto_rhV (op : Op) (n : Nat) (s : State) : (s.goto op n).rhV = s.rhV := rfl
@[simp] theorem State.goto_tV (op : Op) (n : Nat) (s : State) : (s.goto op n).tV = s.tV := rfl
@[simp] theorem State.goto_uregV (op : Op) (n : Nat) (s : State) : (s.goto op n).uregV = s.uregV := rfl
@[simp] theorem State.goto_snV (op : Op) (n : Nat) (s : State) : (s.goto op n).snV = s.snV := rfl
@[simp] theorem State.goto_err (op : Op) (n : Nat) (s : State) : (s.goto op n).err = s.err := rfl
@[simp] theorem State.goto_lastOp (op : Op) (n : Nat) (s : State) : (s.goto op n).lastOp = s.lastOp := rfl
@[simp] theorem State.goto_rhRaw (op : Op) (n : Nat) (s : State) : (s.goto op n).rhRaw = s.rhRaw := rfl
@[simp] theorem State.goto_rhVal (op : Op) (n : Nat) (s : State) : (s.goto op n).rhVal = s.rhVal := rfl
@[simp] theorem State.goto_tRaw (op : Op) (n : Nat) (s : State) : (s.goto op n).tRaw = s.tRaw := rfl
@[simp] theorem State.goto_tVal (op : Op) (n : Nat) (s : State) : (s.goto op n).tVal = s.tVal := rfl
@[simp] theorem State.goto_ureg (op : Op) (n : Nat) (s : State) : (s.goto op n).ureg = s.ureg := rfl
@[simp] theorem State.goto_sn (op : Op) (n : Nat) (s : State) : (s.goto op n).sn = s.sn := rfl
@[simp] theorem State.goto_attempts (op : Op) (n : Nat) (s : State) : (s.goto op n).attempts = s.attempts := rfl
@[simp] theorem State.goto_seq (op : Op) (n : Nat) (s : State) : (s.goto op n).seq = .run op n := rfl
@[simp] theorem State.goto_acc (op : Op) (n : Nat) (s : State) : (s.goto op n).acc = s.acc := rfl
@[simp] theorem State.goto_opnd (op : Op) (n : Nat) (s : State) : (s.goto op n).opnd = s.opnd := rfl
@[simp] theorem State.goto_k (op : Op) (n : Nat) (s : State) : (s.goto op n).k = s.k := rfl
@[simp] theorem State.goto_ready (op : Op) (n : Nat) (s : State) : (s.goto op n).ready = s.ready := rfl
@[simp] theorem State.goto_d0 (op : Op) (n : Nat) (s : State) : (s.goto op n).d0 = s.d0 := rfl
@[simp] theorem State.goto_d1 (op : Op) (n : Nat) (s : State) : (s.goto op n).d1 = s.d1 := rfl
@[simp] theorem State.goto_c (op : Op) (n : Nat) (s : State) : (s.goto op n).c = s.c := rfl
@[simp] theorem State.goto_snT (op : Op) (n : Nat) (s : State) : (s.goto op n).snT = s.snT := rfl
@[simp] theorem State.goto_req (op : Op) (n : Nat) (s : State) : (s.goto op n).req = s.req := rfl
@[simp] theorem State.goto_params (op : Op) (n : Nat) (s : State) : (s.goto op n).params = s.params := rfl
@[simp] theorem State.goto_moves (op : Op) (n : Nat) (s : State) : (s.goto op n).moves = s.moves := rfl
@[simp] theorem State.goto_agents (op : Op) (n : Nat) (s : State) : (s.goto op n).agents = s.agents := rfl
@[simp] theorem State.goto_prog (op : Op) (n : Nat) (s : State) : (s.goto op n).prog = s.prog := rfl
@[simp] theorem State.goto_busIn (op : Op) (n : Nat) (s : State) : (s.goto op n).busIn = s.busIn := rfl
@[simp] theorem State.goto_draws (op : Op) (n : Nat) (s : State) : (s.goto op n).draws = s.draws := rfl
@[simp] theorem State.goto_trace (op : Op) (n : Nat) (s : State) : (s.goto op n).trace = s.trace := rfl
@[simp] theorem State.goto_reads (op : Op) (n : Nat) (s : State) : (s.goto op n).reads = s.reads := rfl

@[simp] theorem accept_ill (i : Instr) (s : State) : (accept i s).ill = s.ill := rfl
@[simp] theorem accept_ovr (i : Instr) (s : State) : (accept i s).ovr = s.ovr := rfl
@[simp] theorem accept_rhV (i : Instr) (s : State) : (accept i s).rhV = s.rhV := rfl
@[simp] theorem accept_tV (i : Instr) (s : State) : (accept i s).tV = s.tV := rfl
@[simp] theorem accept_uregV (i : Instr) (s : State) : (accept i s).uregV = s.uregV := rfl
@[simp] theorem accept_snV (i : Instr) (s : State) : (accept i s).snV = s.snV := rfl
@[simp] theorem accept_err (i : Instr) (s : State) : (accept i s).err = s.err := rfl
@[simp] theorem accept_lastOp (i : Instr) (s : State) : (accept i s).lastOp = opcodeOf i := rfl
@[simp] theorem accept_rhRaw (i : Instr) (s : State) : (accept i s).rhRaw = s.rhRaw := rfl
@[simp] theorem accept_rhVal (i : Instr) (s : State) : (accept i s).rhVal = s.rhVal := rfl
@[simp] theorem accept_tRaw (i : Instr) (s : State) : (accept i s).tRaw = s.tRaw := rfl
@[simp] theorem accept_tVal (i : Instr) (s : State) : (accept i s).tVal = s.tVal := rfl
@[simp] theorem accept_ureg (i : Instr) (s : State) : (accept i s).ureg = s.ureg := rfl
@[simp] theorem accept_sn (i : Instr) (s : State) : (accept i s).sn = s.sn := rfl
@[simp] theorem accept_attempts (i : Instr) (s : State) : (accept i s).attempts = s.attempts := rfl
@[simp] theorem accept_seq (i : Instr) (s : State) : (accept i s).seq = .run (opOf i) 0 := rfl
@[simp] theorem accept_acc (i : Instr) (s : State) : (accept i s).acc = 0 := rfl
@[simp] theorem accept_opnd (i : Instr) (s : State) : (accept i s).opnd = imm8Of i := rfl
@[simp] theorem accept_k (i : Instr) (s : State) : (accept i s).k = 0 := rfl
@[simp] theorem accept_ready (i : Instr) (s : State) : (accept i s).ready = false := rfl
@[simp] theorem accept_d0 (i : Instr) (s : State) : (accept i s).d0 = s.d0 := rfl
@[simp] theorem accept_d1 (i : Instr) (s : State) : (accept i s).d1 = s.d1 := rfl
@[simp] theorem accept_c (i : Instr) (s : State) : (accept i s).c = s.c := rfl
@[simp] theorem accept_snT (i : Instr) (s : State) : (accept i s).snT = s.snT := rfl
@[simp] theorem accept_req (i : Instr) (s : State) : (accept i s).req = s.req := rfl
@[simp] theorem accept_params (i : Instr) (s : State) : (accept i s).params = s.params := rfl
@[simp] theorem accept_moves (i : Instr) (s : State) : (accept i s).moves = s.moves := rfl
@[simp] theorem accept_agents (i : Instr) (s : State) : (accept i s).agents = s.agents := rfl
@[simp] theorem accept_prog (i : Instr) (s : State) : (accept i s).prog = s.prog := rfl
@[simp] theorem accept_busIn (i : Instr) (s : State) : (accept i s).busIn = s.busIn := rfl
@[simp] theorem accept_draws (i : Instr) (s : State) : (accept i s).draws = s.draws := rfl
@[simp] theorem accept_trace (i : Instr) (s : State) : (accept i s).trace = s.trace := rfl
@[simp] theorem accept_reads (i : Instr) (s : State) : (accept i s).reads = s.reads := rfl

@[simp] theorem issue_ill (q : Option Call) (s : State) : (issue q s).ill = s.ill := rfl
@[simp] theorem issue_ovr (q : Option Call) (s : State) : (issue q s).ovr = s.ovr := rfl
@[simp] theorem issue_rhV (q : Option Call) (s : State) : (issue q s).rhV = s.rhV := rfl
@[simp] theorem issue_tV (q : Option Call) (s : State) : (issue q s).tV = s.tV := rfl
@[simp] theorem issue_uregV (q : Option Call) (s : State) : (issue q s).uregV = s.uregV := rfl
@[simp] theorem issue_snV (q : Option Call) (s : State) : (issue q s).snV = s.snV := rfl
@[simp] theorem issue_err (q : Option Call) (s : State) : (issue q s).err = s.err := rfl
@[simp] theorem issue_lastOp (q : Option Call) (s : State) : (issue q s).lastOp = s.lastOp := rfl
@[simp] theorem issue_rhRaw (q : Option Call) (s : State) : (issue q s).rhRaw = s.rhRaw := rfl
@[simp] theorem issue_rhVal (q : Option Call) (s : State) : (issue q s).rhVal = s.rhVal := rfl
@[simp] theorem issue_tRaw (q : Option Call) (s : State) : (issue q s).tRaw = s.tRaw := rfl
@[simp] theorem issue_tVal (q : Option Call) (s : State) : (issue q s).tVal = s.tVal := rfl
@[simp] theorem issue_ureg (q : Option Call) (s : State) : (issue q s).ureg = s.ureg := rfl
@[simp] theorem issue_sn (q : Option Call) (s : State) : (issue q s).sn = s.sn := rfl
@[simp] theorem issue_attempts (q : Option Call) (s : State) : (issue q s).attempts = s.attempts := rfl
@[simp] theorem issue_seq (q : Option Call) (s : State) : (issue q s).seq = s.seq := rfl
@[simp] theorem issue_acc (q : Option Call) (s : State) : (issue q s).acc = s.acc := rfl
@[simp] theorem issue_opnd (q : Option Call) (s : State) : (issue q s).opnd = s.opnd := rfl
@[simp] theorem issue_k (q : Option Call) (s : State) : (issue q s).k = s.k := rfl
@[simp] theorem issue_ready (q : Option Call) (s : State) : (issue q s).ready = s.ready := rfl
@[simp] theorem issue_d0 (q : Option Call) (s : State) : (issue q s).d0 = s.d0 := rfl
@[simp] theorem issue_d1 (q : Option Call) (s : State) : (issue q s).d1 = s.d1 := rfl
@[simp] theorem issue_c (q : Option Call) (s : State) : (issue q s).c = s.c := rfl
@[simp] theorem issue_snT (q : Option Call) (s : State) : (issue q s).snT = s.snT := rfl
@[simp] theorem issue_req (q : Option Call) (s : State) : (issue q s).req = q := rfl
@[simp] theorem issue_params (q : Option Call) (s : State) : (issue q s).params = s.params := rfl
@[simp] theorem issue_moves (q : Option Call) (s : State) : (issue q s).moves = s.moves := rfl
@[simp] theorem issue_agents (q : Option Call) (s : State) : (issue q s).agents = s.agents := rfl
@[simp] theorem issue_prog (q : Option Call) (s : State) : (issue q s).prog = s.prog := rfl
@[simp] theorem issue_busIn (q : Option Call) (s : State) : (issue q s).busIn = s.busIn := rfl
@[simp] theorem issue_draws (q : Option Call) (s : State) : (issue q s).draws = s.draws := rfl
@[simp] theorem issue_trace (q : Option Call) (s : State) : (issue q s).trace = s.trace := rfl
@[simp] theorem issue_reads (q : Option Call) (s : State) : (issue q s).reads = s.reads := rfl

@[simp] theorem record_ill (q : Call) (s : State) : (record q s).ill = s.ill := rfl
@[simp] theorem record_ovr (q : Call) (s : State) : (record q s).ovr = s.ovr := rfl
@[simp] theorem record_rhV (q : Call) (s : State) : (record q s).rhV = s.rhV := rfl
@[simp] theorem record_tV (q : Call) (s : State) : (record q s).tV = s.tV := rfl
@[simp] theorem record_uregV (q : Call) (s : State) : (record q s).uregV = s.uregV := rfl
@[simp] theorem record_snV (q : Call) (s : State) : (record q s).snV = s.snV := rfl
@[simp] theorem record_err (q : Call) (s : State) : (record q s).err = s.err := rfl
@[simp] theorem record_lastOp (q : Call) (s : State) : (record q s).lastOp = s.lastOp := rfl
@[simp] theorem record_rhRaw (q : Call) (s : State) : (record q s).rhRaw = s.rhRaw := rfl
@[simp] theorem record_rhVal (q : Call) (s : State) : (record q s).rhVal = s.rhVal := rfl
@[simp] theorem record_tRaw (q : Call) (s : State) : (record q s).tRaw = s.tRaw := rfl
@[simp] theorem record_tVal (q : Call) (s : State) : (record q s).tVal = s.tVal := rfl
@[simp] theorem record_ureg (q : Call) (s : State) : (record q s).ureg = s.ureg := rfl
@[simp] theorem record_sn (q : Call) (s : State) : (record q s).sn = s.sn := rfl
@[simp] theorem record_attempts (q : Call) (s : State) : (record q s).attempts = s.attempts := rfl
@[simp] theorem record_seq (q : Call) (s : State) : (record q s).seq = s.seq := rfl
@[simp] theorem record_acc (q : Call) (s : State) : (record q s).acc = s.acc := rfl
@[simp] theorem record_opnd (q : Call) (s : State) : (record q s).opnd = s.opnd := rfl
@[simp] theorem record_k (q : Call) (s : State) : (record q s).k = s.k := rfl
@[simp] theorem record_ready (q : Call) (s : State) : (record q s).ready = s.ready := rfl
@[simp] theorem record_d0 (q : Call) (s : State) : (record q s).d0 = s.d0 := rfl
@[simp] theorem record_d1 (q : Call) (s : State) : (record q s).d1 = s.d1 := rfl
@[simp] theorem record_c (q : Call) (s : State) : (record q s).c = s.c := rfl
@[simp] theorem record_snT (q : Call) (s : State) : (record q s).snT = s.snT := rfl
@[simp] theorem record_req (q : Call) (s : State) : (record q s).req = none := rfl
@[simp] theorem record_params (q : Call) (s : State) : (record q s).params = s.params := rfl
@[simp] theorem record_moves (q : Call) (s : State) : (record q s).moves = s.moves := rfl
@[simp] theorem record_agents (q : Call) (s : State) : (record q s).agents = s.agents := rfl
@[simp] theorem record_prog (q : Call) (s : State) : (record q s).prog = s.prog := rfl
@[simp] theorem record_busIn (q : Call) (s : State) : (record q s).busIn = s.busIn := rfl
@[simp] theorem record_draws (q : Call) (s : State) : (record q s).draws = s.draws := rfl
@[simp] theorem record_trace (q : Call) (s : State) : (record q s).trace = s.trace ++ [q.event s.busIn] := rfl
@[simp] theorem record_reads (q : Call) (s : State) : (record q s).reads = s.reads := rfl

@[simp] theorem countAttempt_ill (r : WriteResp) (s : State) : (countAttempt r s).ill = s.ill := rfl
@[simp] theorem countAttempt_ovr (r : WriteResp) (s : State) : (countAttempt r s).ovr = s.ovr := rfl
@[simp] theorem countAttempt_rhV (r : WriteResp) (s : State) : (countAttempt r s).rhV = s.rhV := rfl
@[simp] theorem countAttempt_tV (r : WriteResp) (s : State) : (countAttempt r s).tV = s.tV := rfl
@[simp] theorem countAttempt_uregV (r : WriteResp) (s : State) : (countAttempt r s).uregV = s.uregV := rfl
@[simp] theorem countAttempt_snV (r : WriteResp) (s : State) : (countAttempt r s).snV = s.snV := rfl
@[simp] theorem countAttempt_err (r : WriteResp) (s : State) : (countAttempt r s).err = s.err := rfl
@[simp] theorem countAttempt_lastOp (r : WriteResp) (s : State) : (countAttempt r s).lastOp = s.lastOp := rfl
@[simp] theorem countAttempt_rhRaw (r : WriteResp) (s : State) : (countAttempt r s).rhRaw = s.rhRaw := rfl
@[simp] theorem countAttempt_rhVal (r : WriteResp) (s : State) : (countAttempt r s).rhVal = s.rhVal := rfl
@[simp] theorem countAttempt_tRaw (r : WriteResp) (s : State) : (countAttempt r s).tRaw = s.tRaw := rfl
@[simp] theorem countAttempt_tVal (r : WriteResp) (s : State) : (countAttempt r s).tVal = s.tVal := rfl
@[simp] theorem countAttempt_ureg (r : WriteResp) (s : State) : (countAttempt r s).ureg = s.ureg := rfl
@[simp] theorem countAttempt_sn (r : WriteResp) (s : State) : (countAttempt r s).sn = s.sn := rfl
@[simp] theorem countAttempt_attempts (r : WriteResp) (s : State) : (countAttempt r s).attempts = s.attempts := rfl
@[simp] theorem countAttempt_seq (r : WriteResp) (s : State) : (countAttempt r s).seq = s.seq := rfl
@[simp] theorem countAttempt_acc (r : WriteResp) (s : State) : (countAttempt r s).acc = s.acc := rfl
@[simp] theorem countAttempt_opnd (r : WriteResp) (s : State) : (countAttempt r s).opnd = s.opnd := rfl
@[simp] theorem countAttempt_k (r : WriteResp) (s : State) : (countAttempt r s).k = s.k + 1 := rfl
@[simp] theorem countAttempt_ready (r : WriteResp) (s : State) : (countAttempt r s).ready = decide (r = .ack) := rfl
@[simp] theorem countAttempt_d0 (r : WriteResp) (s : State) : (countAttempt r s).d0 = s.d0 := rfl
@[simp] theorem countAttempt_d1 (r : WriteResp) (s : State) : (countAttempt r s).d1 = s.d1 := rfl
@[simp] theorem countAttempt_c (r : WriteResp) (s : State) : (countAttempt r s).c = s.c := rfl
@[simp] theorem countAttempt_snT (r : WriteResp) (s : State) : (countAttempt r s).snT = s.snT := rfl
@[simp] theorem countAttempt_req (r : WriteResp) (s : State) : (countAttempt r s).req = s.req := rfl
@[simp] theorem countAttempt_params (r : WriteResp) (s : State) : (countAttempt r s).params = s.params := rfl
@[simp] theorem countAttempt_moves (r : WriteResp) (s : State) : (countAttempt r s).moves = s.moves := rfl
@[simp] theorem countAttempt_agents (r : WriteResp) (s : State) : (countAttempt r s).agents = s.agents := rfl
@[simp] theorem countAttempt_prog (r : WriteResp) (s : State) : (countAttempt r s).prog = s.prog := rfl
@[simp] theorem countAttempt_busIn (r : WriteResp) (s : State) : (countAttempt r s).busIn = s.busIn := rfl
@[simp] theorem countAttempt_draws (r : WriteResp) (s : State) : (countAttempt r s).draws = s.draws := rfl
@[simp] theorem countAttempt_trace (r : WriteResp) (s : State) : (countAttempt r s).trace = s.trace := rfl
@[simp] theorem countAttempt_reads (r : WriteResp) (s : State) : (countAttempt r s).reads = s.reads := rfl

@[simp] theorem writeAttempts_ill (s : State) : (writeAttempts s).ill = s.ill := rfl
@[simp] theorem writeAttempts_ovr (s : State) : (writeAttempts s).ovr = s.ovr := rfl
@[simp] theorem writeAttempts_rhV (s : State) : (writeAttempts s).rhV = s.rhV := rfl
@[simp] theorem writeAttempts_tV (s : State) : (writeAttempts s).tV = s.tV := rfl
@[simp] theorem writeAttempts_uregV (s : State) : (writeAttempts s).uregV = s.uregV := rfl
@[simp] theorem writeAttempts_snV (s : State) : (writeAttempts s).snV = s.snV := rfl
@[simp] theorem writeAttempts_err (s : State) : (writeAttempts s).err = s.err := rfl
@[simp] theorem writeAttempts_lastOp (s : State) : (writeAttempts s).lastOp = s.lastOp := rfl
@[simp] theorem writeAttempts_rhRaw (s : State) : (writeAttempts s).rhRaw = s.rhRaw := rfl
@[simp] theorem writeAttempts_rhVal (s : State) : (writeAttempts s).rhVal = s.rhVal := rfl
@[simp] theorem writeAttempts_tRaw (s : State) : (writeAttempts s).tRaw = s.tRaw := rfl
@[simp] theorem writeAttempts_tVal (s : State) : (writeAttempts s).tVal = s.tVal := rfl
@[simp] theorem writeAttempts_ureg (s : State) : (writeAttempts s).ureg = s.ureg := rfl
@[simp] theorem writeAttempts_sn (s : State) : (writeAttempts s).sn = s.sn := rfl
@[simp] theorem writeAttempts_attempts (s : State) : (writeAttempts s).attempts = s.k := rfl
@[simp] theorem writeAttempts_seq (s : State) : (writeAttempts s).seq = s.seq := rfl
@[simp] theorem writeAttempts_acc (s : State) : (writeAttempts s).acc = s.acc := rfl
@[simp] theorem writeAttempts_opnd (s : State) : (writeAttempts s).opnd = s.opnd := rfl
@[simp] theorem writeAttempts_k (s : State) : (writeAttempts s).k = s.k := rfl
@[simp] theorem writeAttempts_ready (s : State) : (writeAttempts s).ready = s.ready := rfl
@[simp] theorem writeAttempts_d0 (s : State) : (writeAttempts s).d0 = s.d0 := rfl
@[simp] theorem writeAttempts_d1 (s : State) : (writeAttempts s).d1 = s.d1 := rfl
@[simp] theorem writeAttempts_c (s : State) : (writeAttempts s).c = s.c := rfl
@[simp] theorem writeAttempts_snT (s : State) : (writeAttempts s).snT = s.snT := rfl
@[simp] theorem writeAttempts_req (s : State) : (writeAttempts s).req = s.req := rfl
@[simp] theorem writeAttempts_params (s : State) : (writeAttempts s).params = s.params := rfl
@[simp] theorem writeAttempts_moves (s : State) : (writeAttempts s).moves = s.moves := rfl
@[simp] theorem writeAttempts_agents (s : State) : (writeAttempts s).agents = s.agents := rfl
@[simp] theorem writeAttempts_prog (s : State) : (writeAttempts s).prog = s.prog := rfl
@[simp] theorem writeAttempts_busIn (s : State) : (writeAttempts s).busIn = s.busIn := rfl
@[simp] theorem writeAttempts_draws (s : State) : (writeAttempts s).draws = s.draws := rfl
@[simp] theorem writeAttempts_trace (s : State) : (writeAttempts s).trace = s.trace := rfl
@[simp] theorem writeAttempts_reads (s : State) : (writeAttempts s).reads = s.reads := rfl

@[simp] theorem publish_ill (s : State) : (publish s).ill = s.ill := rfl
@[simp] theorem publish_ovr (s : State) : (publish s).ovr = s.ovr := rfl
@[simp] theorem publish_rhV (s : State) : (publish s).rhV = s.rhV := rfl
@[simp] theorem publish_tV (s : State) : (publish s).tV = s.tV := rfl
@[simp] theorem publish_uregV (s : State) : (publish s).uregV = s.uregV := rfl
@[simp] theorem publish_snV (s : State) : (publish s).snV = s.snV := rfl
@[simp] theorem publish_err (s : State) : (publish s).err = s.acc := rfl
@[simp] theorem publish_lastOp (s : State) : (publish s).lastOp = s.lastOp := rfl
@[simp] theorem publish_rhRaw (s : State) : (publish s).rhRaw = s.rhRaw := rfl
@[simp] theorem publish_rhVal (s : State) : (publish s).rhVal = s.rhVal := rfl
@[simp] theorem publish_tRaw (s : State) : (publish s).tRaw = s.tRaw := rfl
@[simp] theorem publish_tVal (s : State) : (publish s).tVal = s.tVal := rfl
@[simp] theorem publish_ureg (s : State) : (publish s).ureg = s.ureg := rfl
@[simp] theorem publish_sn (s : State) : (publish s).sn = s.sn := rfl
@[simp] theorem publish_attempts (s : State) : (publish s).attempts = s.attempts := rfl
@[simp] theorem publish_seq (s : State) : (publish s).seq = .idle := rfl
@[simp] theorem publish_acc (s : State) : (publish s).acc = s.acc := rfl
@[simp] theorem publish_opnd (s : State) : (publish s).opnd = s.opnd := rfl
@[simp] theorem publish_k (s : State) : (publish s).k = s.k := rfl
@[simp] theorem publish_ready (s : State) : (publish s).ready = s.ready := rfl
@[simp] theorem publish_d0 (s : State) : (publish s).d0 = s.d0 := rfl
@[simp] theorem publish_d1 (s : State) : (publish s).d1 = s.d1 := rfl
@[simp] theorem publish_c (s : State) : (publish s).c = s.c := rfl
@[simp] theorem publish_snT (s : State) : (publish s).snT = s.snT := rfl
@[simp] theorem publish_req (s : State) : (publish s).req = s.req := rfl
@[simp] theorem publish_params (s : State) : (publish s).params = s.params := rfl
@[simp] theorem publish_moves (s : State) : (publish s).moves = s.moves := rfl
@[simp] theorem publish_agents (s : State) : (publish s).agents = s.agents := rfl
@[simp] theorem publish_prog (s : State) : (publish s).prog = s.prog := rfl
@[simp] theorem publish_busIn (s : State) : (publish s).busIn = s.busIn := rfl
@[simp] theorem publish_draws (s : State) : (publish s).draws = s.draws := rfl
@[simp] theorem publish_trace (s : State) : (publish s).trace = s.trace := rfl
@[simp] theorem publish_reads (s : State) : (publish s).reads = s.reads := rfl

@[simp] theorem State.noteRead_ill (a : HAddr) (s : State) : (s.noteRead a).ill = s.ill := rfl
@[simp] theorem State.noteRead_ovr (a : HAddr) (s : State) : (s.noteRead a).ovr = s.ovr := rfl
@[simp] theorem State.noteRead_rhV (a : HAddr) (s : State) : (s.noteRead a).rhV = s.rhV := rfl
@[simp] theorem State.noteRead_tV (a : HAddr) (s : State) : (s.noteRead a).tV = s.tV := rfl
@[simp] theorem State.noteRead_uregV (a : HAddr) (s : State) : (s.noteRead a).uregV = s.uregV := rfl
@[simp] theorem State.noteRead_snV (a : HAddr) (s : State) : (s.noteRead a).snV = s.snV := rfl
@[simp] theorem State.noteRead_err (a : HAddr) (s : State) : (s.noteRead a).err = s.err := rfl
@[simp] theorem State.noteRead_lastOp (a : HAddr) (s : State) : (s.noteRead a).lastOp = s.lastOp := rfl
@[simp] theorem State.noteRead_rhRaw (a : HAddr) (s : State) : (s.noteRead a).rhRaw = s.rhRaw := rfl
@[simp] theorem State.noteRead_rhVal (a : HAddr) (s : State) : (s.noteRead a).rhVal = s.rhVal := rfl
@[simp] theorem State.noteRead_tRaw (a : HAddr) (s : State) : (s.noteRead a).tRaw = s.tRaw := rfl
@[simp] theorem State.noteRead_tVal (a : HAddr) (s : State) : (s.noteRead a).tVal = s.tVal := rfl
@[simp] theorem State.noteRead_ureg (a : HAddr) (s : State) : (s.noteRead a).ureg = s.ureg := rfl
@[simp] theorem State.noteRead_sn (a : HAddr) (s : State) : (s.noteRead a).sn = s.sn := rfl
@[simp] theorem State.noteRead_attempts (a : HAddr) (s : State) : (s.noteRead a).attempts = s.attempts := rfl
@[simp] theorem State.noteRead_seq (a : HAddr) (s : State) : (s.noteRead a).seq = s.seq := rfl
@[simp] theorem State.noteRead_acc (a : HAddr) (s : State) : (s.noteRead a).acc = s.acc := rfl
@[simp] theorem State.noteRead_opnd (a : HAddr) (s : State) : (s.noteRead a).opnd = s.opnd := rfl
@[simp] theorem State.noteRead_k (a : HAddr) (s : State) : (s.noteRead a).k = s.k := rfl
@[simp] theorem State.noteRead_ready (a : HAddr) (s : State) : (s.noteRead a).ready = s.ready := rfl
@[simp] theorem State.noteRead_d0 (a : HAddr) (s : State) : (s.noteRead a).d0 = s.d0 := rfl
@[simp] theorem State.noteRead_d1 (a : HAddr) (s : State) : (s.noteRead a).d1 = s.d1 := rfl
@[simp] theorem State.noteRead_c (a : HAddr) (s : State) : (s.noteRead a).c = s.c := rfl
@[simp] theorem State.noteRead_snT (a : HAddr) (s : State) : (s.noteRead a).snT = s.snT := rfl
@[simp] theorem State.noteRead_req (a : HAddr) (s : State) : (s.noteRead a).req = s.req := rfl
@[simp] theorem State.noteRead_params (a : HAddr) (s : State) : (s.noteRead a).params = s.params := rfl
@[simp] theorem State.noteRead_moves (a : HAddr) (s : State) : (s.noteRead a).moves = s.moves := rfl
@[simp] theorem State.noteRead_agents (a : HAddr) (s : State) : (s.noteRead a).agents = s.agents := rfl
@[simp] theorem State.noteRead_prog (a : HAddr) (s : State) : (s.noteRead a).prog = s.prog := rfl
@[simp] theorem State.noteRead_busIn (a : HAddr) (s : State) : (s.noteRead a).busIn = s.busIn := rfl
@[simp] theorem State.noteRead_draws (a : HAddr) (s : State) : (s.noteRead a).draws = s.draws := rfl
@[simp] theorem State.noteRead_trace (a : HAddr) (s : State) : (s.noteRead a).trace = s.trace := rfl
@[simp] theorem State.noteRead_reads (a : HAddr) (s : State) : (s.noteRead a).reads = s.reads ++ [{ addr := a, value := s.readValue a }] := rfl

@[simp] theorem drawAnswer_ill (s : State) : (drawAnswer s).ill = s.ill := rfl
@[simp] theorem drawAnswer_ovr (s : State) : (drawAnswer s).ovr = s.ovr := rfl
@[simp] theorem drawAnswer_rhV (s : State) : (drawAnswer s).rhV = s.rhV := rfl
@[simp] theorem drawAnswer_tV (s : State) : (drawAnswer s).tV = s.tV := rfl
@[simp] theorem drawAnswer_uregV (s : State) : (drawAnswer s).uregV = s.uregV := rfl
@[simp] theorem drawAnswer_snV (s : State) : (drawAnswer s).snV = s.snV := rfl
@[simp] theorem drawAnswer_err (s : State) : (drawAnswer s).err = s.err := rfl
@[simp] theorem drawAnswer_lastOp (s : State) : (drawAnswer s).lastOp = s.lastOp := rfl
@[simp] theorem drawAnswer_rhRaw (s : State) : (drawAnswer s).rhRaw = s.rhRaw := rfl
@[simp] theorem drawAnswer_rhVal (s : State) : (drawAnswer s).rhVal = s.rhVal := rfl
@[simp] theorem drawAnswer_tRaw (s : State) : (drawAnswer s).tRaw = s.tRaw := rfl
@[simp] theorem drawAnswer_tVal (s : State) : (drawAnswer s).tVal = s.tVal := rfl
@[simp] theorem drawAnswer_ureg (s : State) : (drawAnswer s).ureg = s.ureg := rfl
@[simp] theorem drawAnswer_sn (s : State) : (drawAnswer s).sn = s.sn := rfl
@[simp] theorem drawAnswer_attempts (s : State) : (drawAnswer s).attempts = s.attempts := rfl
@[simp] theorem drawAnswer_seq (s : State) : (drawAnswer s).seq = s.seq := rfl
@[simp] theorem drawAnswer_acc (s : State) : (drawAnswer s).acc = s.acc := rfl
@[simp] theorem drawAnswer_opnd (s : State) : (drawAnswer s).opnd = s.opnd := rfl
@[simp] theorem drawAnswer_k (s : State) : (drawAnswer s).k = s.k := rfl
@[simp] theorem drawAnswer_ready (s : State) : (drawAnswer s).ready = s.ready := rfl
@[simp] theorem drawAnswer_d0 (s : State) : (drawAnswer s).d0 = s.d0 := rfl
@[simp] theorem drawAnswer_d1 (s : State) : (drawAnswer s).d1 = s.d1 := rfl
@[simp] theorem drawAnswer_c (s : State) : (drawAnswer s).c = s.c := rfl
@[simp] theorem drawAnswer_snT (s : State) : (drawAnswer s).snT = s.snT := rfl
@[simp] theorem drawAnswer_req (s : State) : (drawAnswer s).req = s.req := rfl
@[simp] theorem drawAnswer_params (s : State) : (drawAnswer s).params = s.params := rfl
@[simp] theorem drawAnswer_moves (s : State) : (drawAnswer s).moves = s.moves := rfl
@[simp] theorem drawAnswer_agents (s : State) : (drawAnswer s).agents = s.agents := rfl
@[simp] theorem drawAnswer_prog (s : State) : (drawAnswer s).prog = s.prog := rfl
@[simp] theorem drawAnswer_busIn (s : State) : (drawAnswer s).busIn = Config.freeAnswer s.draws := rfl
@[simp] theorem drawAnswer_draws (s : State) : (drawAnswer s).draws = s.draws + 1 := rfl
@[simp] theorem drawAnswer_trace (s : State) : (drawAnswer s).trace = s.trace := rfl
@[simp] theorem drawAnswer_reads (s : State) : (drawAnswer s).reads = s.reads := rfl

@[simp] theorem controllerReset_ill (s : State) : (controllerReset s).ill = State.reset.ill := rfl
@[simp] theorem controllerReset_ovr (s : State) : (controllerReset s).ovr = State.reset.ovr := rfl
@[simp] theorem controllerReset_rhV (s : State) : (controllerReset s).rhV = State.reset.rhV := rfl
@[simp] theorem controllerReset_tV (s : State) : (controllerReset s).tV = State.reset.tV := rfl
@[simp] theorem controllerReset_uregV (s : State) : (controllerReset s).uregV = State.reset.uregV := rfl
@[simp] theorem controllerReset_snV (s : State) : (controllerReset s).snV = State.reset.snV := rfl
@[simp] theorem controllerReset_err (s : State) : (controllerReset s).err = State.reset.err := rfl
@[simp] theorem controllerReset_lastOp (s : State) : (controllerReset s).lastOp = State.reset.lastOp := rfl
@[simp] theorem controllerReset_rhRaw (s : State) : (controllerReset s).rhRaw = State.reset.rhRaw := rfl
@[simp] theorem controllerReset_rhVal (s : State) : (controllerReset s).rhVal = State.reset.rhVal := rfl
@[simp] theorem controllerReset_tRaw (s : State) : (controllerReset s).tRaw = State.reset.tRaw := rfl
@[simp] theorem controllerReset_tVal (s : State) : (controllerReset s).tVal = State.reset.tVal := rfl
@[simp] theorem controllerReset_ureg (s : State) : (controllerReset s).ureg = State.reset.ureg := rfl
@[simp] theorem controllerReset_sn (s : State) : (controllerReset s).sn = State.reset.sn := rfl
@[simp] theorem controllerReset_attempts (s : State) : (controllerReset s).attempts = State.reset.attempts := rfl
@[simp] theorem controllerReset_seq (s : State) : (controllerReset s).seq = State.reset.seq := rfl
@[simp] theorem controllerReset_acc (s : State) : (controllerReset s).acc = State.reset.acc := rfl
@[simp] theorem controllerReset_opnd (s : State) : (controllerReset s).opnd = State.reset.opnd := rfl
@[simp] theorem controllerReset_k (s : State) : (controllerReset s).k = State.reset.k := rfl
@[simp] theorem controllerReset_ready (s : State) : (controllerReset s).ready = State.reset.ready := rfl
@[simp] theorem controllerReset_d0 (s : State) : (controllerReset s).d0 = State.reset.d0 := rfl
@[simp] theorem controllerReset_d1 (s : State) : (controllerReset s).d1 = State.reset.d1 := rfl
@[simp] theorem controllerReset_c (s : State) : (controllerReset s).c = State.reset.c := rfl
@[simp] theorem controllerReset_snT (s : State) : (controllerReset s).snT = State.reset.snT := rfl
@[simp] theorem controllerReset_req (s : State) : (controllerReset s).req = State.reset.req := rfl
@[simp] theorem controllerReset_params (s : State) : (controllerReset s).params = s.params := rfl
@[simp] theorem controllerReset_moves (s : State) : (controllerReset s).moves = s.moves := rfl
@[simp] theorem controllerReset_agents (s : State) : (controllerReset s).agents = s.agents := rfl
@[simp] theorem controllerReset_prog (s : State) : (controllerReset s).prog = s.prog := rfl
@[simp] theorem controllerReset_busIn (s : State) : (controllerReset s).busIn = s.busIn := rfl
@[simp] theorem controllerReset_draws (s : State) : (controllerReset s).draws = s.draws := rfl
@[simp] theorem controllerReset_trace (s : State) : (controllerReset s).trace = s.trace := rfl
@[simp] theorem controllerReset_reads (s : State) : (controllerReset s).reads = s.reads := rfl

@[simp] theorem placeCommand_ill (w : Word) (s : State) : (placeCommand w s).ill = s.ill := rfl
@[simp] theorem placeCommand_ovr (w : Word) (s : State) : (placeCommand w s).ovr = s.ovr := rfl
@[simp] theorem placeCommand_rhV (w : Word) (s : State) : (placeCommand w s).rhV = s.rhV := rfl
@[simp] theorem placeCommand_tV (w : Word) (s : State) : (placeCommand w s).tV = s.tV := rfl
@[simp] theorem placeCommand_uregV (w : Word) (s : State) : (placeCommand w s).uregV = s.uregV := rfl
@[simp] theorem placeCommand_snV (w : Word) (s : State) : (placeCommand w s).snV = s.snV := rfl
@[simp] theorem placeCommand_err (w : Word) (s : State) : (placeCommand w s).err = s.err := rfl
@[simp] theorem placeCommand_lastOp (w : Word) (s : State) : (placeCommand w s).lastOp = s.lastOp := rfl
@[simp] theorem placeCommand_rhRaw (w : Word) (s : State) : (placeCommand w s).rhRaw = s.rhRaw := rfl
@[simp] theorem placeCommand_rhVal (w : Word) (s : State) : (placeCommand w s).rhVal = s.rhVal := rfl
@[simp] theorem placeCommand_tRaw (w : Word) (s : State) : (placeCommand w s).tRaw = s.tRaw := rfl
@[simp] theorem placeCommand_tVal (w : Word) (s : State) : (placeCommand w s).tVal = s.tVal := rfl
@[simp] theorem placeCommand_ureg (w : Word) (s : State) : (placeCommand w s).ureg = s.ureg := rfl
@[simp] theorem placeCommand_sn (w : Word) (s : State) : (placeCommand w s).sn = s.sn := rfl
@[simp] theorem placeCommand_attempts (w : Word) (s : State) : (placeCommand w s).attempts = s.attempts := rfl
@[simp] theorem placeCommand_seq (w : Word) (s : State) : (placeCommand w s).seq = .idle := rfl
@[simp] theorem placeCommand_acc (w : Word) (s : State) : (placeCommand w s).acc = s.acc := rfl
@[simp] theorem placeCommand_opnd (w : Word) (s : State) : (placeCommand w s).opnd = s.opnd := rfl
@[simp] theorem placeCommand_k (w : Word) (s : State) : (placeCommand w s).k = s.k := rfl
@[simp] theorem placeCommand_ready (w : Word) (s : State) : (placeCommand w s).ready = s.ready := rfl
@[simp] theorem placeCommand_d0 (w : Word) (s : State) : (placeCommand w s).d0 = s.d0 := rfl
@[simp] theorem placeCommand_d1 (w : Word) (s : State) : (placeCommand w s).d1 = s.d1 := rfl
@[simp] theorem placeCommand_c (w : Word) (s : State) : (placeCommand w s).c = s.c := rfl
@[simp] theorem placeCommand_snT (w : Word) (s : State) : (placeCommand w s).snT = s.snT := rfl
@[simp] theorem placeCommand_req (w : Word) (s : State) : (placeCommand w s).req = none := rfl
@[simp] theorem placeCommand_params (w : Word) (s : State) : (placeCommand w s).params = s.params := rfl
@[simp] theorem placeCommand_moves (w : Word) (s : State) : (placeCommand w s).moves = .host :: s.moves := rfl
@[simp] theorem placeCommand_agents (w : Word) (s : State) : (placeCommand w s).agents = s.agents := rfl
@[simp] theorem placeCommand_prog (w : Word) (s : State) : (placeCommand w s).prog = .hw haddrCmd w :: s.prog := rfl
@[simp] theorem placeCommand_busIn (w : Word) (s : State) : (placeCommand w s).busIn = s.busIn := rfl
@[simp] theorem placeCommand_draws (w : Word) (s : State) : (placeCommand w s).draws = s.draws := rfl
@[simp] theorem placeCommand_trace (w : Word) (s : State) : (placeCommand w s).trace = s.trace := rfl
@[simp] theorem placeCommand_reads (w : Word) (s : State) : (placeCommand w s).reads = s.reads := rfl

@[simp] theorem State.store_ill (dst : ReadDest) (b : Byte) (s : State) : (s.store dst b).ill = s.ill := by cases dst <;> rfl
@[simp] theorem State.store_ovr (dst : ReadDest) (b : Byte) (s : State) : (s.store dst b).ovr = s.ovr := by cases dst <;> rfl
@[simp] theorem State.store_rhV (dst : ReadDest) (b : Byte) (s : State) : (s.store dst b).rhV = s.rhV := by cases dst <;> rfl
@[simp] theorem State.store_tV (dst : ReadDest) (b : Byte) (s : State) : (s.store dst b).tV = s.tV := by cases dst <;> rfl
@[simp] theorem State.store_uregV (dst : ReadDest) (b : Byte) (s : State) : (s.store dst b).uregV = s.uregV := by cases dst <;> rfl
@[simp] theorem State.store_snV (dst : ReadDest) (b : Byte) (s : State) : (s.store dst b).snV = s.snV := by cases dst <;> rfl
@[simp] theorem State.store_err (dst : ReadDest) (b : Byte) (s : State) : (s.store dst b).err = s.err := by cases dst <;> rfl
@[simp] theorem State.store_lastOp (dst : ReadDest) (b : Byte) (s : State) : (s.store dst b).lastOp = s.lastOp := by cases dst <;> rfl
@[simp] theorem State.store_rhRaw (dst : ReadDest) (b : Byte) (s : State) : (s.store dst b).rhRaw = s.rhRaw := by cases dst <;> rfl
@[simp] theorem State.store_rhVal (dst : ReadDest) (b : Byte) (s : State) : (s.store dst b).rhVal = s.rhVal := by cases dst <;> rfl
@[simp] theorem State.store_tRaw (dst : ReadDest) (b : Byte) (s : State) : (s.store dst b).tRaw = s.tRaw := by cases dst <;> rfl
@[simp] theorem State.store_tVal (dst : ReadDest) (b : Byte) (s : State) : (s.store dst b).tVal = s.tVal := by cases dst <;> rfl
@[simp] theorem State.store_ureg (dst : ReadDest) (b : Byte) (s : State) : (s.store dst b).ureg = s.ureg := by cases dst <;> rfl
@[simp] theorem State.store_sn (dst : ReadDest) (b : Byte) (s : State) : (s.store dst b).sn = s.sn := by cases dst <;> rfl
@[simp] theorem State.store_attempts (dst : ReadDest) (b : Byte) (s : State) : (s.store dst b).attempts = s.attempts := by cases dst <;> rfl
@[simp] theorem State.store_seq (dst : ReadDest) (b : Byte) (s : State) : (s.store dst b).seq = s.seq := by cases dst <;> rfl
@[simp] theorem State.store_acc (dst : ReadDest) (b : Byte) (s : State) : (s.store dst b).acc = s.acc := by cases dst <;> rfl
@[simp] theorem State.store_opnd (dst : ReadDest) (b : Byte) (s : State) : (s.store dst b).opnd = s.opnd := by cases dst <;> rfl
@[simp] theorem State.store_k (dst : ReadDest) (b : Byte) (s : State) : (s.store dst b).k = s.k := by cases dst <;> rfl
@[simp] theorem State.store_ready (dst : ReadDest) (b : Byte) (s : State) : (s.store dst b).ready = s.ready := by cases dst <;> rfl
@[simp] theorem State.store_req (dst : ReadDest) (b : Byte) (s : State) : (s.store dst b).req = s.req := by cases dst <;> rfl
@[simp] theorem State.store_params (dst : ReadDest) (b : Byte) (s : State) : (s.store dst b).params = s.params := by cases dst <;> rfl
@[simp] theorem State.store_moves (dst : ReadDest) (b : Byte) (s : State) : (s.store dst b).moves = s.moves := by cases dst <;> rfl
@[simp] theorem State.store_agents (dst : ReadDest) (b : Byte) (s : State) : (s.store dst b).agents = s.agents := by cases dst <;> rfl
@[simp] theorem State.store_prog (dst : ReadDest) (b : Byte) (s : State) : (s.store dst b).prog = s.prog := by cases dst <;> rfl
@[simp] theorem State.store_busIn (dst : ReadDest) (b : Byte) (s : State) : (s.store dst b).busIn = s.busIn := by cases dst <;> rfl
@[simp] theorem State.store_draws (dst : ReadDest) (b : Byte) (s : State) : (s.store dst b).draws = s.draws := by cases dst <;> rfl
@[simp] theorem State.store_trace (dst : ReadDest) (b : Byte) (s : State) : (s.store dst b).trace = s.trace := by cases dst <;> rfl
@[simp] theorem State.store_reads (dst : ReadDest) (b : Byte) (s : State) : (s.store dst b).reads = s.reads := by cases dst <;> rfl

@[simp] theorem rmwLines_ill (clr set : Byte) (rest : List HostLine) (s : State) : (rmwLines clr set rest s).ill = s.ill := by unfold rmwLines; split <;> [skip; rfl]; split <;> rfl
@[simp] theorem rmwLines_ovr (clr set : Byte) (rest : List HostLine) (s : State) : (rmwLines clr set rest s).ovr = s.ovr := by unfold rmwLines; split <;> [skip; rfl]; split <;> rfl
@[simp] theorem rmwLines_rhV (clr set : Byte) (rest : List HostLine) (s : State) : (rmwLines clr set rest s).rhV = s.rhV := by unfold rmwLines; split <;> [skip; rfl]; split <;> rfl
@[simp] theorem rmwLines_tV (clr set : Byte) (rest : List HostLine) (s : State) : (rmwLines clr set rest s).tV = s.tV := by unfold rmwLines; split <;> [skip; rfl]; split <;> rfl
@[simp] theorem rmwLines_uregV (clr set : Byte) (rest : List HostLine) (s : State) : (rmwLines clr set rest s).uregV = s.uregV := by unfold rmwLines; split <;> [skip; rfl]; split <;> rfl
@[simp] theorem rmwLines_snV (clr set : Byte) (rest : List HostLine) (s : State) : (rmwLines clr set rest s).snV = s.snV := by unfold rmwLines; split <;> [skip; rfl]; split <;> rfl
@[simp] theorem rmwLines_err (clr set : Byte) (rest : List HostLine) (s : State) : (rmwLines clr set rest s).err = s.err := by unfold rmwLines; split <;> [skip; rfl]; split <;> rfl
@[simp] theorem rmwLines_lastOp (clr set : Byte) (rest : List HostLine) (s : State) : (rmwLines clr set rest s).lastOp = s.lastOp := by unfold rmwLines; split <;> [skip; rfl]; split <;> rfl
@[simp] theorem rmwLines_rhRaw (clr set : Byte) (rest : List HostLine) (s : State) : (rmwLines clr set rest s).rhRaw = s.rhRaw := by unfold rmwLines; split <;> [skip; rfl]; split <;> rfl
@[simp] theorem rmwLines_rhVal (clr set : Byte) (rest : List HostLine) (s : State) : (rmwLines clr set rest s).rhVal = s.rhVal := by unfold rmwLines; split <;> [skip; rfl]; split <;> rfl
@[simp] theorem rmwLines_tRaw (clr set : Byte) (rest : List HostLine) (s : State) : (rmwLines clr set rest s).tRaw = s.tRaw := by unfold rmwLines; split <;> [skip; rfl]; split <;> rfl
@[simp] theorem rmwLines_tVal (clr set : Byte) (rest : List HostLine) (s : State) : (rmwLines clr set rest s).tVal = s.tVal := by unfold rmwLines; split <;> [skip; rfl]; split <;> rfl
@[simp] theorem rmwLines_ureg (clr set : Byte) (rest : List HostLine) (s : State) : (rmwLines clr set rest s).ureg = s.ureg := by unfold rmwLines; split <;> [skip; rfl]; split <;> rfl
@[simp] theorem rmwLines_sn (clr set : Byte) (rest : List HostLine) (s : State) : (rmwLines clr set rest s).sn = s.sn := by unfold rmwLines; split <;> [skip; rfl]; split <;> rfl
@[simp] theorem rmwLines_attempts (clr set : Byte) (rest : List HostLine) (s : State) : (rmwLines clr set rest s).attempts = s.attempts := by unfold rmwLines; split <;> [skip; rfl]; split <;> rfl
@[simp] theorem rmwLines_seq (clr set : Byte) (rest : List HostLine) (s : State) : (rmwLines clr set rest s).seq = s.seq := by unfold rmwLines; split <;> [skip; rfl]; split <;> rfl
@[simp] theorem rmwLines_acc (clr set : Byte) (rest : List HostLine) (s : State) : (rmwLines clr set rest s).acc = s.acc := by unfold rmwLines; split <;> [skip; rfl]; split <;> rfl
@[simp] theorem rmwLines_opnd (clr set : Byte) (rest : List HostLine) (s : State) : (rmwLines clr set rest s).opnd = s.opnd := by unfold rmwLines; split <;> [skip; rfl]; split <;> rfl
@[simp] theorem rmwLines_k (clr set : Byte) (rest : List HostLine) (s : State) : (rmwLines clr set rest s).k = s.k := by unfold rmwLines; split <;> [skip; rfl]; split <;> rfl
@[simp] theorem rmwLines_ready (clr set : Byte) (rest : List HostLine) (s : State) : (rmwLines clr set rest s).ready = s.ready := by unfold rmwLines; split <;> [skip; rfl]; split <;> rfl
@[simp] theorem rmwLines_d0 (clr set : Byte) (rest : List HostLine) (s : State) : (rmwLines clr set rest s).d0 = s.d0 := by unfold rmwLines; split <;> [skip; rfl]; split <;> rfl
@[simp] theorem rmwLines_d1 (clr set : Byte) (rest : List HostLine) (s : State) : (rmwLines clr set rest s).d1 = s.d1 := by unfold rmwLines; split <;> [skip; rfl]; split <;> rfl
@[simp] theorem rmwLines_c (clr set : Byte) (rest : List HostLine) (s : State) : (rmwLines clr set rest s).c = s.c := by unfold rmwLines; split <;> [skip; rfl]; split <;> rfl
@[simp] theorem rmwLines_snT (clr set : Byte) (rest : List HostLine) (s : State) : (rmwLines clr set rest s).snT = s.snT := by unfold rmwLines; split <;> [skip; rfl]; split <;> rfl
@[simp] theorem rmwLines_req (clr set : Byte) (rest : List HostLine) (s : State) : (rmwLines clr set rest s).req = s.req := by unfold rmwLines; split <;> [skip; rfl]; split <;> rfl
@[simp] theorem rmwLines_params (clr set : Byte) (rest : List HostLine) (s : State) : (rmwLines clr set rest s).params = s.params := by unfold rmwLines; split <;> [skip; rfl]; split <;> rfl
@[simp] theorem rmwLines_moves (clr set : Byte) (rest : List HostLine) (s : State) : (rmwLines clr set rest s).moves = s.moves := by unfold rmwLines; split <;> [skip; rfl]; split <;> rfl
@[simp] theorem rmwLines_agents (clr set : Byte) (rest : List HostLine) (s : State) : (rmwLines clr set rest s).agents = s.agents := by unfold rmwLines; split <;> [skip; rfl]; split <;> rfl
@[simp] theorem rmwLines_busIn (clr set : Byte) (rest : List HostLine) (s : State) : (rmwLines clr set rest s).busIn = s.busIn := by unfold rmwLines; split <;> [skip; rfl]; split <;> rfl
@[simp] theorem rmwLines_trace (clr set : Byte) (rest : List HostLine) (s : State) : (rmwLines clr set rest s).trace = s.trace := by unfold rmwLines; split <;> [skip; rfl]; split <;> rfl
@[simp] theorem rmwLines_reads (clr set : Byte) (rest : List HostLine) (s : State) : (rmwLines clr set rest s).reads = s.reads := by unfold rmwLines; split <;> [skip; rfl]; split <;> rfl

@[simp] theorem checkCrc_ill (wire : List Byte) (s : State) : (checkCrc wire s).ill = s.ill := by unfold checkCrc; split <;> rfl
@[simp] theorem checkCrc_ovr (wire : List Byte) (s : State) : (checkCrc wire s).ovr = s.ovr := by unfold checkCrc; split <;> rfl
@[simp] theorem checkCrc_rhV (wire : List Byte) (s : State) : (checkCrc wire s).rhV = s.rhV := by unfold checkCrc; split <;> rfl
@[simp] theorem checkCrc_tV (wire : List Byte) (s : State) : (checkCrc wire s).tV = s.tV := by unfold checkCrc; split <;> rfl
@[simp] theorem checkCrc_uregV (wire : List Byte) (s : State) : (checkCrc wire s).uregV = s.uregV := by unfold checkCrc; split <;> rfl
@[simp] theorem checkCrc_snV (wire : List Byte) (s : State) : (checkCrc wire s).snV = s.snV := by unfold checkCrc; split <;> rfl
@[simp] theorem checkCrc_err (wire : List Byte) (s : State) : (checkCrc wire s).err = s.err := by unfold checkCrc; split <;> rfl
@[simp] theorem checkCrc_lastOp (wire : List Byte) (s : State) : (checkCrc wire s).lastOp = s.lastOp := by unfold checkCrc; split <;> rfl
@[simp] theorem checkCrc_rhRaw (wire : List Byte) (s : State) : (checkCrc wire s).rhRaw = s.rhRaw := by unfold checkCrc; split <;> rfl
@[simp] theorem checkCrc_rhVal (wire : List Byte) (s : State) : (checkCrc wire s).rhVal = s.rhVal := by unfold checkCrc; split <;> rfl
@[simp] theorem checkCrc_tRaw (wire : List Byte) (s : State) : (checkCrc wire s).tRaw = s.tRaw := by unfold checkCrc; split <;> rfl
@[simp] theorem checkCrc_tVal (wire : List Byte) (s : State) : (checkCrc wire s).tVal = s.tVal := by unfold checkCrc; split <;> rfl
@[simp] theorem checkCrc_ureg (wire : List Byte) (s : State) : (checkCrc wire s).ureg = s.ureg := by unfold checkCrc; split <;> rfl
@[simp] theorem checkCrc_sn (wire : List Byte) (s : State) : (checkCrc wire s).sn = s.sn := by unfold checkCrc; split <;> rfl
@[simp] theorem checkCrc_attempts (wire : List Byte) (s : State) : (checkCrc wire s).attempts = s.attempts := by unfold checkCrc; split <;> rfl
@[simp] theorem checkCrc_seq (wire : List Byte) (s : State) : (checkCrc wire s).seq = s.seq := by unfold checkCrc; split <;> rfl
@[simp] theorem checkCrc_opnd (wire : List Byte) (s : State) : (checkCrc wire s).opnd = s.opnd := by unfold checkCrc; split <;> rfl
@[simp] theorem checkCrc_k (wire : List Byte) (s : State) : (checkCrc wire s).k = s.k := by unfold checkCrc; split <;> rfl
@[simp] theorem checkCrc_ready (wire : List Byte) (s : State) : (checkCrc wire s).ready = s.ready := by unfold checkCrc; split <;> rfl
@[simp] theorem checkCrc_d0 (wire : List Byte) (s : State) : (checkCrc wire s).d0 = s.d0 := by unfold checkCrc; split <;> rfl
@[simp] theorem checkCrc_d1 (wire : List Byte) (s : State) : (checkCrc wire s).d1 = s.d1 := by unfold checkCrc; split <;> rfl
@[simp] theorem checkCrc_c (wire : List Byte) (s : State) : (checkCrc wire s).c = s.c := by unfold checkCrc; split <;> rfl
@[simp] theorem checkCrc_snT (wire : List Byte) (s : State) : (checkCrc wire s).snT = s.snT := by unfold checkCrc; split <;> rfl
@[simp] theorem checkCrc_req (wire : List Byte) (s : State) : (checkCrc wire s).req = s.req := by unfold checkCrc; split <;> rfl
@[simp] theorem checkCrc_params (wire : List Byte) (s : State) : (checkCrc wire s).params = s.params := by unfold checkCrc; split <;> rfl
@[simp] theorem checkCrc_moves (wire : List Byte) (s : State) : (checkCrc wire s).moves = s.moves := by unfold checkCrc; split <;> rfl
@[simp] theorem checkCrc_agents (wire : List Byte) (s : State) : (checkCrc wire s).agents = s.agents := by unfold checkCrc; split <;> rfl
@[simp] theorem checkCrc_prog (wire : List Byte) (s : State) : (checkCrc wire s).prog = s.prog := by unfold checkCrc; split <;> rfl
@[simp] theorem checkCrc_busIn (wire : List Byte) (s : State) : (checkCrc wire s).busIn = s.busIn := by unfold checkCrc; split <;> rfl
@[simp] theorem checkCrc_draws (wire : List Byte) (s : State) : (checkCrc wire s).draws = s.draws := by unfold checkCrc; split <;> rfl
@[simp] theorem checkCrc_trace (wire : List Byte) (s : State) : (checkCrc wire s).trace = s.trace := by unfold checkCrc; split <;> rfl
@[simp] theorem checkCrc_reads (wire : List Byte) (s : State) : (checkCrc wire s).reads = s.reads := by unfold checkCrc; split <;> rfl

@[simp] theorem writeMeasurement_ill (kind : Kind) (s : State) : (writeMeasurement kind s).ill = s.ill := by cases kind <;> rfl
@[simp] theorem writeMeasurement_ovr (kind : Kind) (s : State) : (writeMeasurement kind s).ovr = s.ovr := by cases kind <;> rfl
@[simp] theorem writeMeasurement_uregV (kind : Kind) (s : State) : (writeMeasurement kind s).uregV = s.uregV := by cases kind <;> rfl
@[simp] theorem writeMeasurement_snV (kind : Kind) (s : State) : (writeMeasurement kind s).snV = s.snV := by cases kind <;> rfl
@[simp] theorem writeMeasurement_err (kind : Kind) (s : State) : (writeMeasurement kind s).err = s.err := by cases kind <;> rfl
@[simp] theorem writeMeasurement_lastOp (kind : Kind) (s : State) : (writeMeasurement kind s).lastOp = s.lastOp := by cases kind <;> rfl
@[simp] theorem writeMeasurement_ureg (kind : Kind) (s : State) : (writeMeasurement kind s).ureg = s.ureg := by cases kind <;> rfl
@[simp] theorem writeMeasurement_sn (kind : Kind) (s : State) : (writeMeasurement kind s).sn = s.sn := by cases kind <;> rfl
@[simp] theorem writeMeasurement_attempts (kind : Kind) (s : State) : (writeMeasurement kind s).attempts = s.attempts := by cases kind <;> rfl
@[simp] theorem writeMeasurement_seq (kind : Kind) (s : State) : (writeMeasurement kind s).seq = s.seq := by cases kind <;> rfl
@[simp] theorem writeMeasurement_acc (kind : Kind) (s : State) : (writeMeasurement kind s).acc = s.acc := by cases kind <;> rfl
@[simp] theorem writeMeasurement_opnd (kind : Kind) (s : State) : (writeMeasurement kind s).opnd = s.opnd := by cases kind <;> rfl
@[simp] theorem writeMeasurement_k (kind : Kind) (s : State) : (writeMeasurement kind s).k = s.k := by cases kind <;> rfl
@[simp] theorem writeMeasurement_ready (kind : Kind) (s : State) : (writeMeasurement kind s).ready = s.ready := by cases kind <;> rfl
@[simp] theorem writeMeasurement_d0 (kind : Kind) (s : State) : (writeMeasurement kind s).d0 = s.d0 := by cases kind <;> rfl
@[simp] theorem writeMeasurement_d1 (kind : Kind) (s : State) : (writeMeasurement kind s).d1 = s.d1 := by cases kind <;> rfl
@[simp] theorem writeMeasurement_c (kind : Kind) (s : State) : (writeMeasurement kind s).c = s.c := by cases kind <;> rfl
@[simp] theorem writeMeasurement_snT (kind : Kind) (s : State) : (writeMeasurement kind s).snT = s.snT := by cases kind <;> rfl
@[simp] theorem writeMeasurement_req (kind : Kind) (s : State) : (writeMeasurement kind s).req = s.req := by cases kind <;> rfl
@[simp] theorem writeMeasurement_params (kind : Kind) (s : State) : (writeMeasurement kind s).params = s.params := by cases kind <;> rfl
@[simp] theorem writeMeasurement_moves (kind : Kind) (s : State) : (writeMeasurement kind s).moves = s.moves := by cases kind <;> rfl
@[simp] theorem writeMeasurement_agents (kind : Kind) (s : State) : (writeMeasurement kind s).agents = s.agents := by cases kind <;> rfl
@[simp] theorem writeMeasurement_prog (kind : Kind) (s : State) : (writeMeasurement kind s).prog = s.prog := by cases kind <;> rfl
@[simp] theorem writeMeasurement_busIn (kind : Kind) (s : State) : (writeMeasurement kind s).busIn = s.busIn := by cases kind <;> rfl
@[simp] theorem writeMeasurement_draws (kind : Kind) (s : State) : (writeMeasurement kind s).draws = s.draws := by cases kind <;> rfl
@[simp] theorem writeMeasurement_trace (kind : Kind) (s : State) : (writeMeasurement kind s).trace = s.trace := by cases kind <;> rfl
@[simp] theorem writeMeasurement_reads (kind : Kind) (s : State) : (writeMeasurement kind s).reads = s.reads := by cases kind <;> rfl

@[simp] theorem writeMeasurement_rhRaw (s : State) : (writeMeasurement .rh s).rhRaw = rawOf s.d0 s.d1 := rfl
@[simp] theorem writeMeasurement_rhVal (s : State) :
    (writeMeasurement .rh s).rhVal = convert .rh (maskStatus (rawOf s.d0 s.d1)) := rfl
@[simp] theorem writeMeasurement_rhV (s : State) : (writeMeasurement .rh s).rhV = true := rfl
@[simp] theorem writeMeasurement_rh_tRaw (s : State) : (writeMeasurement .rh s).tRaw = s.tRaw := rfl
@[simp] theorem writeMeasurement_rh_tVal (s : State) : (writeMeasurement .rh s).tVal = s.tVal := rfl
@[simp] theorem writeMeasurement_rh_tV (s : State) : (writeMeasurement .rh s).tV = s.tV := rfl
@[simp] theorem writeMeasurement_tRaw (s : State) : (writeMeasurement .t s).tRaw = rawOf s.d0 s.d1 := rfl
@[simp] theorem writeMeasurement_tVal (s : State) :
    (writeMeasurement .t s).tVal = convert .t (maskStatus (rawOf s.d0 s.d1)) := rfl
@[simp] theorem writeMeasurement_tV (s : State) : (writeMeasurement .t s).tV = true := rfl
@[simp] theorem writeMeasurement_t_rhRaw (s : State) : (writeMeasurement .t s).rhRaw = s.rhRaw := rfl
@[simp] theorem writeMeasurement_t_rhVal (s : State) : (writeMeasurement .t s).rhVal = s.rhVal := rfl
@[simp] theorem writeMeasurement_t_rhV (s : State) : (writeMeasurement .t s).rhV = s.rhV := rfl

/-- The checksum's only effect: ERR_CRC in acc where validation fails (R133). -/
@[simp] theorem checkCrc_acc (wire : List Byte) (s : State) :
    (checkCrc wire s).acc =
      if crcIn s.params.crcOrder wire = s.c then s.acc else s.acc ||| errBit .crc := by
  unfold checkCrc validate
  split <;> split <;> simp_all

/-- The bytes of `v.set i b`: the one at `i` is `b`, the others are as before. -/
theorem SnBytes.get_set (v : SnBytes) (i j : Fin 8) (b : Byte) :
    (v.set i b).get j = if j = i then b else v.get j := by
  revert i j
  intro i j
  match i, j with
  | 0, 0 | 0, 1 | 0, 2 | 0, 3 | 0, 4 | 0, 5 | 0, 6 | 0, 7 => rfl
  | 1, 0 | 1, 1 | 1, 2 | 1, 3 | 1, 4 | 1, 5 | 1, 6 | 1, 7 => rfl
  | 2, 0 | 2, 1 | 2, 2 | 2, 3 | 2, 4 | 2, 5 | 2, 6 | 2, 7 => rfl
  | 3, 0 | 3, 1 | 3, 2 | 3, 3 | 3, 4 | 3, 5 | 3, 6 | 3, 7 => rfl
  | 4, 0 | 4, 1 | 4, 2 | 4, 3 | 4, 4 | 4, 5 | 4, 6 | 4, 7 => rfl
  | 5, 0 | 5, 1 | 5, 2 | 5, 3 | 5, 4 | 5, 5 | 5, 6 | 5, 7 => rfl
  | 6, 0 | 6, 1 | 6, 2 | 6, 3 | 6, 4 | 6, 5 | 6, 6 | 6, 7 => rfl
  | 7, 0 | 7, 1 | 7, 2 | 7, 3 | 7, 4 | 7, 5 | 7, 6 | 7, 7 => rfl

end Sys2Proof.Machine
end

