-- ==== Sys2Proof/Laws/Ops.lean ====
section
/-! SUPPORT. One lemma for each shared operation, saying everything it can do; later proofs cite these and do not unfold
the operations. -/

namespace Sys2Proof.Machine

/-- Everything a listing step can do when it answers a next state (R104, R113). -/
theorem microStep_cases {op : Op} {l : Listing} {n : Nat} {s t : State} (h : microStep op l n s = .next t) :
    ∃ m, l[n]? = some m ∧
      ((∃ what, m = .commit what ∧ s.req = none ∧ t = commit what s) ∨
       ((∀ what, m ≠ .commit what) ∧ s.req = none ∧ t = issue (m.call s) s) ∨
       (∃ c, s.req = some c ∧ t = answer op m c s)) := by
  unfold microStep at h
  split at h
  · cases h
  · rename_i what hm hr
    exact ⟨_, hm, .inl ⟨what, rfl, hr, by simpa using h.symm⟩⟩
  · rename_i m hnc hm hr
    exact ⟨m, hm, .inr (.inl ⟨hnc, hr, by simpa using h.symm⟩)⟩
  · rename_i m c hm hr
    exact ⟨m, hm, .inr (.inr ⟨c, hr, by simpa using h.symm⟩)⟩

/-- A listing step stops only outside the listing. -/
theorem microStep_next {op : Op} {l : Listing} {n : Nat} (s : State) (h : n < l.length) :
    ∃ t, microStep op l n s = .next t := by
  unfold microStep
  rw [List.getElem?_eq_getElem h]
  cases hm : l[n] <;> cases s.req <;> exact ⟨_, rfl⟩

/-- Everything a command can do when it answers a next state (R100, R103, R104; log entry 2). -/
theorem command_cases {i : Instr} {l : Listing} {s t : State} (h : command i l s = .next t) :
    (s.seq = .idle ∧ t = accept i s) ∨
    (∃ op n, s.seq = .run op n ∧ op ≠ opOf i ∧ t = s.setOvr) ∨
    (∃ n, s.seq = .run (opOf i) n ∧ microStep (opOf i) l n s = .next t) := by
  unfold command at h
  split at h
  · rename_i hs
    exact .inl ⟨hs, by simpa using h.symm⟩
  · rename_i op n hs
    split at h
    · rename_i ho
      subst ho
      exact .inr (.inr ⟨n, hs, h⟩)
    · rename_i ho
      exact .inr (.inl ⟨op, n, hs, ho, by simpa using h.symm⟩)

/-- Every instruction's meaning is its command over its own listing. -/
theorem exec_eq (i : Instr) (s : State) : exec i s = command i (listingOf (opOf i)) s := by
  cases i <;> rfl

@[simp] theorem opOf_instrOf (op : Op) (b : Byte) : opOf (instrOf op b) = op := by cases op <;> rfl
@[simp] theorem imm8Of_instrOf (op : Op) (b : Byte) : imm8Of (instrOf op b) = b := by cases op <;> rfl
@[simp] theorem instrOf_opOf (i : Instr) : instrOf (opOf i) (imm8Of i) = i := by cases i <;> rfl

/-- The running command's step is a step of its listing. -/
theorem exec_running {op : Op} {n : Nat} {s : State} (h : s.seq = .run op n) (b : Byte) :
    exec (instrOf op b) s = microStep op (listingOf op) n s := by
  simp [exec_eq, command, h]

/-- Where the polling loop goes (R152 s4), in each of its four cases. -/
theorem afterAttempt_cases (data wait skip : Nat) (op : Op) (s : State) :
    (s.ready = true ∧ afterAttempt data wait skip op s = s.goto op data) ∨
    (s.ready = false ∧ s.k.toNat < pollBudget ∧ afterAttempt data wait skip op s = s.goto op wait) ∨
    (s.ready = false ∧ pollBudget ≤ s.k.toNat ∧ s.params.timeoutReads = .continue ∧
      afterAttempt data wait skip op s = (s.accumulate (errBit .timeout)).goto op data) ∨
    (s.ready = false ∧ pollBudget ≤ s.k.toNat ∧ s.params.timeoutReads = .skip ∧
      afterAttempt data wait skip op s = (s.accumulate (errBit .timeout)).goto op skip) := by
  unfold afterAttempt
  cases hr : s.ready
  · by_cases hk : s.k.toNat < pollBudget
    · simp [hk]
    · cases hp : s.params.timeoutReads <;> simp [hk] <;> omega
  · simp

/-- The fields that are not the controller's working state stay as they are when a call is answered. -/
theorem deliver_frame (op : Op) (m : Micro) (s : State) :
    let t := deliver op m s
    t.ill = s.ill ∧ t.ovr = s.ovr ∧ t.rhV = s.rhV ∧ t.tV = s.tV ∧ t.uregV = s.uregV ∧ t.snV = s.snV ∧
    t.err = s.err ∧ t.lastOp = s.lastOp ∧ t.rhRaw = s.rhRaw ∧ t.rhVal = s.rhVal ∧ t.tRaw = s.tRaw ∧
    t.tVal = s.tVal ∧ t.ureg = s.ureg ∧ t.sn = s.sn ∧ t.attempts = s.attempts ∧ t.opnd = s.opnd ∧
    t.req = s.req ∧ t.params = s.params ∧ t.moves = s.moves ∧ t.agents = s.agents ∧ t.prog = s.prog ∧
    t.busIn = s.busIn ∧ t.draws = s.draws ∧ t.trace = s.trace ∧ t.reads = s.reads := by
  cases m with
  | attempt data wait skip =>
    rcases afterAttempt_cases data wait skip op (countAttempt s.busIn.resp s) with
      ⟨_, h⟩ | ⟨_, _, h⟩ | ⟨_, _, _, h⟩ | ⟨_, _, _, h⟩ <;> simp [deliver, h]
  | _ => simp [deliver]

/-- A delivered call leaves the operation running, unless its micro-step is a Commit. -/
theorem deliver_seq {op : Op} {m : Micro} (s : State) (h : ∀ what, m ≠ .commit what) :
    ∃ n, (deliver op m s).seq = .run op n := by
  cases m with
  | attempt data wait skip =>
    rcases afterAttempt_cases data wait skip op (countAttempt s.busIn.resp s) with
      ⟨_, h⟩ | ⟨_, _, h⟩ | ⟨_, _, _, h⟩ | ⟨_, _, _, h⟩ <;> exact ⟨_, by simp [deliver, h]; rfl⟩
  | commit what => exact absurd rfl (h what)
  | _ => exact ⟨_, rfl⟩

/-- Commit leaves the sequencer idle, publishes acc after its assignment, and touches no field of the model's own. -/
theorem commit_frame (what : Commit) (s : State) :
    let t := commit what s
    t.seq = .idle ∧ t.err = (what.assign s).acc ∧ t.ill = s.ill ∧ t.ovr = s.ovr ∧ t.lastOp = s.lastOp ∧
    t.opnd = s.opnd ∧ t.k = s.k ∧ t.ready = s.ready ∧ t.d0 = s.d0 ∧ t.d1 = s.d1 ∧ t.c = s.c ∧ t.snT = s.snT ∧
    t.req = s.req ∧ t.params = s.params ∧ t.moves = s.moves ∧ t.agents = s.agents ∧ t.prog = s.prog ∧
    t.busIn = s.busIn ∧ t.draws = s.draws ∧ t.trace = s.trace ∧ t.reads = s.reads := by
  cases what <;> simp [commit, Commit.assign]

/-- Everything a host write can do (R62). -/
theorem hostWrite_cases (a : HAddr) (v : Word) (s : State) :
    (a = haddrCmd ∧ s.busy = true ∧ hostWrite a v s = .done s.setOvr) ∨
    (a = haddrCmd ∧ s.busy = false ∧ (∃ b, decode v = .illegal b) ∧ hostWrite a v s = .done s.setIll) ∨
    (a = haddrCmd ∧ s.busy = false ∧ ∃ i, decode v = .legal i ∧ hostWrite a v s = .exec i s) ∨
    (a = haddrStatus ∧ hostWrite a v s = .done (s.writeStatus v)) ∨
    (a ≠ haddrCmd ∧ a ≠ haddrStatus ∧ hostWrite a v s = .done s) := by
  unfold hostWrite writeCmd
  by_cases ha : a = haddrCmd
  · cases hb : s.busy
    · cases hd : decode v <;> simp [ha]
    · simp [ha]
  · by_cases hs : a = haddrStatus
    · subst hs
      simp [haddrCmd, haddrStatus]
    · simp [ha, hs]

/-- Everything the conditional line of UREG.RMW can do (R92). -/
theorem rmwLines_cases (clr set : Byte) (rest : List HostLine) (s : State) :
    (s.lastReadZero = true ∧ s.uregV = true ∧
      rmwLines clr set rest s = { s with prog := rmwWrite clr set s.ureg ++ rest }) ∨
    (s.lastReadZero = true ∧ s.uregV = false ∧
      rmwLines clr set rest s =
        { s with prog := rmwWrite clr set (Config.freeByte s.draws) ++ rest, draws := s.draws + 1 }) ∨
    (s.lastReadZero = false ∧ rmwLines clr set rest s = { s with prog := rest }) := by
  unfold rmwLines
  cases s.lastReadZero <;> cases s.uregV <;> simp

/-- The controller is idle, or it runs an operation. -/
theorem busy_false {s : State} : s.busy = false ↔ s.seq = .idle := by
  unfold State.busy; split <;> simp_all

theorem busy_true {s : State} : s.busy = true ↔ ∃ op n, s.seq = .run op n := by
  unfold State.busy; split <;> simp_all

/-- What the running command's step is (R101, R104). -/
theorem runningStep_cases (s : State) :
    (s.seq = .idle ∧ runningStep s = .done s) ∨
    (∃ op n, s.seq = .run op n ∧ runningStep s = .exec (instrOf op s.opnd) s) := by
  unfold runningStep; split <;> simp_all

/-- What a step is: a move of the list, or the default move where the list is empty. -/
theorem nextAction_nil {s : State} (h : s.moves = []) : nextAction s = defaultMove s := by
  simp [nextAction, h]

theorem nextAction_cons {s : State} {m : Move} {rest : List Move} (h : s.moves = m :: rest) :
    nextAction s = moveOf m { s with moves := rest } := by
  simp [nextAction, h]

theorem step_done {s t : State} (h : nextAction s = .done t) : step s = .next t := by
  simp [step, h]

theorem step_exec {s t : State} {i : Instr} (h : nextAction s = .exec i t) : step s = exec i t := by
  simp [step, h]

end Sys2Proof.Machine
end

