-- ==== Sys2Proof/Laws/PerInstr.lean ====
section
/-! SUPPORT. Families of lemmas with one member per command: the fields of its command word (spec/30_encoding.md R81,
R86). -/

namespace Sys2Proof.Laws.CommandFields

/-- The encoder puts the opcode in CMD[7:0], the operand in CMD[15:8], and 0 in CMD[31:16] (R81, R86). -/
def Statement (i : Instr) : Prop :=
  opcodeField (encode i) = opcodeOf i ∧ imm8Field (encode i) = imm8Of i ∧ (encode i).extractLsb' 16 16 = 0

/-- The three fields of a command word built from any operand and opcode. -/
theorem fields (b o : Byte) :
    let w : Word := (b.setWidth 32 <<< 8) ||| o.setWidth 32
    w.extractLsb' 0 8 = o ∧ w.extractLsb' 8 8 = b ∧ w.extractLsb' 16 16 = 0 := by
  refine ⟨?_, ?_, ?_⟩ <;>
  · apply BitVec.eq_of_getLsbD_eq
    intro j hj
    simp [BitVec.getLsbD_extractLsb', BitVec.getLsbD_setWidth, BitVec.getLsbD_shiftLeft]
    intros
    first
      | omega
      | (simp_all; omega)
      | grind

theorem measTHold (imm8 : Byte) : Statement (.measTHold imm8) := fields _ _
theorem measRhHold (imm8 : Byte) : Statement (.measRhHold imm8) := fields _ _
theorem uregWr (imm8 : Byte) : Statement (.uregWr imm8) := fields _ _
theorem uregRd (imm8 : Byte) : Statement (.uregRd imm8) := fields _ _
theorem measT (imm8 : Byte) : Statement (.measT imm8) := fields _ _
theorem measRh (imm8 : Byte) : Statement (.measRh imm8) := fields _ _
theorem snRd (imm8 : Byte) : Statement (.snRd imm8) := fields _ _
theorem srst (imm8 : Byte) : Statement (.srst imm8) := fields _ _

end Sys2Proof.Laws.CommandFields
end

