-- ==== Sys2Proof/Laws/Step.lean ====
section
/-! SUPPORT. What a step of the machine can do, said once, and the frames of the operations it is made of. -/

namespace Sys2Proof.Machine

/-- Where the host moves next, the step is its move. -/
theorem nextAction_host {s : State} (h : s.hostMovesNext = true) :
    nextAction s = hostMove { s with moves := s.moves.tail } := by
  cases hm : s.moves with
  | nil =>
    have hs : { s with moves := ([] : List Move).tail } = s := by cases s; simp_all
    simp only [State.hostMovesNext, hm] at h
    rw [nextAction_nil hm, hs]
    cases hb : s.busy <;> simp_all [defaultMove]
  | cons m rest => cases m <;> simp_all [State.hostMovesNext, nextAction, moveOf]

/-- `t` differs from `s` at most in what the agents around the controller will do, and in the host's reads. -/
def SameController (s t : State) : Prop :=
  ∃ m p b d r, t = { s with moves := m, prog := p, busIn := b, draws := d, reads := r }

/-- Everything a step that answers a next state can be (spec/20_memory.md R66): controller reset; a step that leaves the
controller alone; a STATUS write; an illegal command; an overrun; an accepted command; or a step of the running listing. -/
inductive StepCase (s : State) : State → Prop where
  | reset (m : List Move) (h : s.resetsNext = true) :
      StepCase s { State.reset with
        params := s.params, moves := m, agents := s.agents, prog := s.prog, busIn := s.busIn, draws := s.draws,
        trace := s.trace, reads := s.reads }
  | same (u : State) (h : SameController s u) : StepCase s u
  | status (u : State) (v : Word) (h : SameController s u) : StepCase s (u.writeStatus v)
  | ill (u : State) (w : Word) (b : Byte) (h : SameController s u) (hi : s.seq = .idle)
      (hw : s.cmdWriteNext = some w) (hd : decode w = .illegal b) : StepCase s u.setIll
  | ovr (u : State) (h : SameController s u) (hb : s.breaksBusyRule = true) : StepCase s u.setOvr
  | accept (u : State) (w : Word) (i : Instr) (h : SameController s u) (hi : s.seq = .idle)
      (hw : s.cmdWriteNext = some w) (hd : decode w = .legal i) : StepCase s (accept i u)
  | run (u t : State) (op : Op) (n : Nat) (h : SameController s u) (hs : s.seq = .run op n)
      (ht : microStep op (listingOf op) n u = .next t) : StepCase s t

/-- The host's step. -/
theorem hostMove_cases {s t : State} (hn : s.hostMovesNext = true) (h : step s = .next t) : StepCase s t := by
  unfold step at h
  rw [nextAction_host hn] at h
  unfold hostMove at h
  cases hp : s.prog with
  | nil => simp [hp] at h; subst h; exact .same _ ⟨_, _, _, _, _, rfl⟩
  | cons l rest =>
    cases l with
    | hw a v =>
      simp only [hp] at h
      rcases hostWrite_cases a v { s with moves := s.moves.tail, prog := rest } with
        ⟨ha, hb, e⟩ | ⟨ha, hb, ⟨b, hd⟩, e⟩ | ⟨ha, hb, i, hd, e⟩ | ⟨ha, e⟩ | ⟨_, _, e⟩
      · rw [e] at h; cases h
        have : s.busy = true := hb
        exact .ovr _ ⟨_, _, _, _, _, rfl⟩ (by simp [State.breaksBusyRule, State.cmdWriteNext, hn, hp, ha, this])
      · rw [e] at h; cases h
        have : s.busy = false := hb
        exact .ill _ v b ⟨_, _, _, _, _, rfl⟩ (busy_false.1 this) (by simp [State.cmdWriteNext, hn, hp, ha]) hd
      · rw [e] at h; simp only at h
        have hi : s.seq = .idle := busy_false.1 hb
        have e2 : exec i { s with moves := s.moves.tail, prog := rest } =
            .next (accept i { s with moves := s.moves.tail, prog := rest }) := by simp [exec_eq, command, hi]
        rw [e2] at h
        cases h
        exact .accept { s with moves := s.moves.tail, prog := rest } v i ⟨_, _, _, _, _, rfl⟩ hi
          (by simp [State.cmdWriteNext, hn, hp, ha]) hd
      · rw [e] at h; cases h; exact .status _ _ ⟨_, _, _, _, _, rfl⟩
      · rw [e] at h; cases h; exact .same _ ⟨_, _, _, _, _, rfl⟩
    | hr a => simp [hp] at h; subst h; exact .same _ ⟨_, _, _, _, _, rfl⟩
    | waitIdle => simp [hp] at h; subst h; exact .same _ ⟨_, _, _, _, _, rfl⟩
    | rmwUreg c x =>
      simp only [hp] at h
      cases h
      refine .same _ ?_
      rcases rmwLines_cases c x rest { s with moves := s.moves.tail } with
        ⟨_, _, e⟩ | ⟨_, _, e⟩ | ⟨_, e⟩ <;> rw [hp] at e <;> rw [e] <;> exact ⟨_, _, _, _, _, rfl⟩

/-- The running command's step. -/
theorem runningStep_stepCase {s u t : State} (hu : SameController s u)
    (h : (match runningStep u with | .done t => Host.Outcome.next t | .exec i t => exec i t) = .next t) :
    StepCase s t := by
  obtain ⟨m,p,b,d,r,rfl⟩ := hu
  rcases runningStep_cases { s with moves := m, prog := p, busIn := b, draws := d, reads := r } with
    ⟨_, e⟩ | ⟨op, n, hs, e⟩
  · rw [e] at h; cases h; exact .same _ ⟨_, _, _, _, _, rfl⟩
  · rw [e] at h; simp only at h; rw [exec_running hs] at h
    exact .run _ _ op n ⟨_, _, _, _, _, rfl⟩ hs h

/-- What a step can do, once for all later proofs. -/
theorem step_cases {s t : State} (h : step s = .next t) : StepCase s t := by
  by_cases hn : s.hostMovesNext = true
  · exact hostMove_cases hn h
  · cases hm : s.moves with
    | nil =>
      have hb : s.busy = true ∧ s.unanswered = false := by simpa [State.hostMovesNext, hm] using hn
      unfold step at h
      rw [nextAction_nil hm] at h
      simp only [defaultMove, hb.1, hb.2, Bool.not_false, Bool.and_self, if_true] at h
      split at h
      all_goals
        rename_i e
        refine runningStep_stepCase (s := s) ?_ (by rw [e]; exact h)
        split <;> exact ⟨_, _, _, _, _, rfl⟩
    | cons m rest =>
      unfold step at h
      rw [nextAction_cons hm] at h
      cases m with
      | host => simp [State.hostMovesNext, hm] at hn
      | reset => simp [moveOf, controllerReset] at h; subst h; exact .reset rest (by simp [State.resetsNext, hm])
      | sequencer =>
        simp only [moveOf, sequencerMove] at h
        split at h
        all_goals rename_i e; split at e
        all_goals first
          | (cases e; done)
          | (cases e; cases h; exact .same _ ⟨_, _, _, _, _, rfl⟩)
          | exact runningStep_stepCase (s := s) (u := { s with moves := rest }) ⟨rest, _, _, _, _, rfl⟩
              (by rw [e]; exact h)
      | timer =>
        simp only [moveOf, timerMove] at h
        split at h
        all_goals rename_i e; split at e
        all_goals first
          | (cases e; done)
          | (cases e; cases h; exact .same _ ⟨_, _, _, _, _, rfl⟩)
          | exact runningStep_stepCase (s := s) (u := { s with moves := rest }) ⟨rest, _, _, _, _, rfl⟩
              (by rw [e]; exact h)
      | bus a =>
        simp only [moveOf, busMove] at h
        split at h
        all_goals rename_i e; split at e
        all_goals first
          | (cases e; done)
          | (cases e; cases h; exact .same _ ⟨_, _, _, _, _, rfl⟩)
          | exact runningStep_stepCase (s := s) (u := { s with moves := rest, busIn := a })
              ⟨rest, _, a, _, _, rfl⟩ (by rw [e]; exact h)

/-- A host register other than STATUS depends on its own field only. -/
theorem hostRead_congr {s t : State} (a : HAddr) (h1 : a ≠ 1) (h2 : t.err = s.err) (h3 : t.lastOp = s.lastOp)
    (h4 : t.rhRaw = s.rhRaw) (h5 : t.rhVal = s.rhVal) (h6 : t.tRaw = s.tRaw) (h7 : t.tVal = s.tVal)
    (h8 : t.ureg = s.ureg) (h9 : t.sn = s.sn) (h10 : t.attempts = s.attempts) :
    t.hostRead a = s.hostRead a := by
  unfold State.hostRead; split <;> simp_all

/-- What an answered call leaves unchanged, and that it is recorded. -/
theorem answer_frame (op : Op) (m : Micro) (c : Call) (s : State) :
    let t := answer op m c s
    t.ill = s.ill ∧ t.ovr = s.ovr ∧ t.rhV = s.rhV ∧ t.tV = s.tV ∧ t.uregV = s.uregV ∧ t.snV = s.snV ∧
    t.err = s.err ∧ t.lastOp = s.lastOp ∧ t.rhRaw = s.rhRaw ∧ t.rhVal = s.rhVal ∧ t.tRaw = s.tRaw ∧
    t.tVal = s.tVal ∧ t.ureg = s.ureg ∧ t.sn = s.sn ∧ t.attempts = s.attempts ∧ t.opnd = s.opnd ∧
    t.req = none ∧ t.params = s.params ∧ t.moves = s.moves ∧ t.agents = s.agents ∧ t.prog = s.prog ∧ t.busIn = s.busIn ∧
    t.draws = s.draws ∧ t.trace = s.trace ++ [c.event s.busIn] ∧ t.reads = s.reads := by
  have := deliver_frame op m (record c s)
  simpa [answer] using this

/-- The Commit of each listing. -/
theorem commit_of_listing (op : Op) (n : Nat) (what : Commit) (h : (listingOf op)[n]? = some (.commit what)) :
    (op = .uregRd ∧ n = 8 ∧ what = .ureg) ∨ (op = .uregWr ∧ n = 5 ∧ what = .nothing) ∨
    (op = .srst ∧ n = 5 ∧ what = .nothing) ∨
    (op = .snRd ∧ n = 28 ∧ what = .serial) ∨ (op = .measRh ∧ n = 11 ∧ what = .polled .rh) ∨
    (op = .measT ∧ n = 11 ∧ what = .polled .t) ∨
    (op = .measRh ∧ n = 12 ∧ what = .attemptsOnly) ∨ (op = .measT ∧ n = 12 ∧ what = .attemptsOnly) ∨
    (op = .measRhHold ∧ n = 9 ∧ what = .held .rh) ∨ (op = .measTHold ∧ n = 9 ∧ what = .held .t) := by
  have hn : n < (listingOf op).length := by
    by_contra hc
    rw [List.getElem?_eq_none (by omega)] at h; cases h
  cases op <;>
    simp [listingOf, holdListing, pollListing, uregRdListing, uregWrListing, snRdListing, snBank1, snBank2,
      srstListing] at h hn <;>
    interval_cases n <;> simp_all

end Sys2Proof.Machine
end

