-- ==== Sys2Proof/Tests/Slice0.lean ====
section
/-! SUPPORT. The model's own tests: words written from the encodings of spec/30_encoding.md, one-step tests with the values
of spec/42, 43, 44, 45 and 95, and for each statement with hypotheses a state that meets them. -/

namespace Sys2Proof.Tests

open Sys2Proof Sys2Proof.Machine

/-- The state after a step, if there is one. -/
def nextState : Host.Outcome State Fault Refusal → Option State
  | .next s => some s
  | .fault _ => none
  | .refused _ => none

/-- After reset, the host about to execute `lines`. -/
def hostState (lines : List HostLine) : State := { State.reset with prog := lines }

/-- Operation `op` at micro-step `n`, with nothing pending. -/
def atStep (op : Op) (n : Nat) : State :=
  { State.reset with seq := .run op n, lastOp := opcodeOf (instrOf op 0) }

/-- The same with call `c` pending. -/
def waiting (op : Op) (n : Nat) (c : Call) : State := { atStep op n with req := some c }

/-- Bus answers for tests. -/
def ackAnswer : BusAnswer := { resp := .ack, byte := 0x5A }
def nackAnswer : BusAnswer := { resp := .nack, byte := 0x00 }
def collAnswer : BusAnswer := { resp := .coll, byte := 0xFF }

/-! ### Well-formedness: a non-zero operand byte is refused on every command but UREG.WR (R86, R91) -/

theorem test_wf_measTHold : (Instr.measTHold 1).wf = false ∧ (Instr.measTHold 0).wf = true := by decide
theorem test_wf_measRhHold : (Instr.measRhHold 0x80).wf = false ∧ (Instr.measRhHold 0).wf = true := by decide
theorem test_wf_uregRd : (Instr.uregRd 2).wf = false ∧ (Instr.uregRd 0).wf = true := by decide
theorem test_wf_measT : (Instr.measT 0xFF).wf = false ∧ (Instr.measT 0).wf = true := by decide
theorem test_wf_measRh : (Instr.measRh 1).wf = false ∧ (Instr.measRh 0).wf = true := by decide
theorem test_wf_snRd : (Instr.snRd 0x0F).wf = false ∧ (Instr.snRd 0).wf = true := by decide
theorem test_wf_srst : (Instr.srst 4).wf = false ∧ (Instr.srst 0).wf = true := by decide
theorem test_wf_uregWr : (Instr.uregWr 0xFF).wf = true := by decide
theorem test_assemble_refuses_operand : assemble (.srst 4) = none ∧ (assemble (.uregWr 4)).isSome = true := by decide

/-! ### Decoding: each word bit by bit, ignored [31:16], imm8 [15:8], opcode [7:0] (R81, R83) -/

theorem test_decode_measTHold : decode 0b0000000000000000_00000000_11100011#32 = .legal (.measTHold 0) := by decide
theorem test_decode_measRhHold : decode 0b0000000000000000_00000000_11100101#32 = .legal (.measRhHold 0) := by decide
theorem test_decode_uregWr : decode 0b0000000000000000_00000110_11100110#32 = .legal (.uregWr 0x06) := by decide
theorem test_decode_uregRd : decode 0b0000000000000000_00000000_11100111#32 = .legal (.uregRd 0) := by decide
theorem test_decode_measT : decode 0b0000000000000000_00000000_11110011#32 = .legal (.measT 0) := by decide
theorem test_decode_measRh : decode 0b0000000000000000_00000000_11110101#32 = .legal (.measRh 0) := by decide
theorem test_decode_snRd : decode 0b0000000000000000_00000000_11111010#32 = .legal (.snRd 0) := by decide
theorem test_decode_srst : decode 0b0000000000000000_00000000_11111110#32 = .legal (.srst 0) := by decide
/-- CMD[31:16] is ignored and imm8 is not sign-extended (R81, R82). -/
theorem test_decode_ignored_bits : decode 0b1010101111001101_10000001_11100110#32 = .legal (.uregWr 0x81) := by decide
/-- Neighbours of legal opcodes and the second-bank command byte are illegal (R85). -/
theorem test_decode_illegal :
    decode 0b0000000000000000_00000000_11100100#32 = .illegal 0xE4 ∧
    decode 0b0000000000000000_00000000_11111100#32 = .illegal 0xFC ∧
    decode 0b0000000000000000_11100111_00000000#32 = .illegal 0x00 := by decide
theorem test_encode_uregWr : encode (.uregWr 0x06) = 0x000006E6#32 := by decide
theorem test_decodeTableWord : decodeTableWord 32 0x000006E6 = some (.uregWr 0x06) ∧
    decodeTableWord 32 0x000000FC = none := by decide

/-! ### CRC and conversion: the worked values of R137 and of spec/95_test_vectors.md L2.1, L2.2 -/

theorem test_crc_one_byte : crc8 [0x02] = 0x62 ∧ crc8 [0xFF] = 0xAC ∧ crc8 [] = 0x00 := by decide
set_option maxRecDepth 10000 in
theorem test_crc_two_bytes : crc8 [0x68, 0x3A] = 0x7C ∧ crc8 [0x3A, 0x68] = 0x5E ∧ crc8 [0x4E, 0x85] = 0x6B := by decide
set_option maxRecDepth 10000 in
theorem test_crc_order : crcIn .wire [0x68, 0x3A] = 0x7C ∧ crcIn .reverseWire [0x68, 0x3A] = 0x5E := by decide
/-- R170 (b), (c). -/
theorem test_convert_ends :
    (convert .rh (maskStatus 0x0003)).toInt = -393216 ∧ (convert .rh (maskStatus 0xFFFF)).toInt = 7798284 ∧
    (convert .t (maskStatus 0x0003)).toInt = -307036160 ∧ (convert .t (maskStatus 0xFFFF)).toInt = 844492144 := by decide

/-! ### One step of each command -/

set_option maxRecDepth 10000 in
/-- R171 (1): reads 0x7C, 0x80, 0xF5 after four attempts. -/
theorem test_measRh_commit :
    (nextState (exec (.measRh 0) { atStep .measRh 11 with d0 := 0x7C, d1 := 0x80, c := 0xF5, k := 4, ready := true })).map
      (fun t => (t.rhRaw, t.rhVal, t.attempts, t.err, t.rhV)) = some (0x7C80, 3590784, 4, 0, true) := by decide
/-- R157: the 200th attempt fails. -/
theorem test_measRh_timeout :
    (nextState (exec (.measRh 0) { waiting .measRh 4 (.write 0x81) with k := 199, busIn := nackAnswer })).map
      (fun t => (t.k, t.acc, t.seq)) = some (200, 0b0010, .run .measRh 6) := by decide
set_option maxRecDepth 10000 in
/-- R171 (2): reads 0x68, 0x3A, 0x7C at attempt 1. -/
theorem test_measT_commit :
    (nextState (exec (.measT 0) { atStep .measT 11 with d0 := 0x68, d1 := 0x3A, c := 0x7C, k := 1, ready := true })).map
      (fun t => (t.tRaw, t.tVal, t.attempts, t.err, t.tV)) = some (0x683A, 161784800, 1, 0, true) := by decide
/-- R157: a success on attempt 200 is not a timeout. -/
theorem test_measT_last_attempt :
    (nextState (exec (.measT 0) { waiting .measT 4 (.write 0x81) with k := 199, busIn := ackAnswer })).map
      (fun t => (t.k, t.acc, t.seq)) = some (200, 0b0000, .run .measT 6) := by decide
set_option maxRecDepth 10000 in
/-- R171 (3): reads 0x4E, 0x85, 0x6B; ATTEMPTS unchanged. -/
theorem test_measTHold_commit :
    (nextState (exec (.measTHold 0) { atStep .measTHold 9 with d0 := 0x4E, d1 := 0x85, c := 0x6B, attempts := 9 })).map
      (fun t => (t.tRaw, t.tVal, t.attempts, t.err)) = some (0x4E85, 46161040, 9, 0) := by decide
set_option maxRecDepth 10000 in
/-- R170 (a): 0x7C83 has the value of 0x7C80 but not its checksum. -/
theorem test_measRhHold_crc :
    (nextState (exec (.measRhHold 0) { atStep .measRhHold 9 with d0 := 0x7C, d1 := 0x83, c := 0xF5 })).map
      (fun t => (t.rhRaw, t.rhVal, t.err)) = some (0x7C83, 3590784, 0b0100) := by decide
/-- R142: the bus answers 0x02, 0x62. -/
theorem test_uregRd_commit :
    (nextState (exec (.uregRd 0) { atStep .uregRd 8 with d0 := 0x02, c := 0x62 })).map
      (fun t => (t.hostRead 8, t.err, t.uregV)) = some (0x00000002, 0, true) := by decide
/-- R142 (c): the bus answers 0xFF, 0xFF after a write that was not acknowledged. -/
theorem test_uregRd_flags :
    (nextState (exec (.uregRd 0) { atStep .uregRd 8 with d0 := 0xFF, c := 0xFF, acc := 0b0001 })).map
      (fun t => (t.hostRead 8, t.hostRead 2)) = some (0x000000FF, 0x00000005) := by decide
/-- R143 s3: the value byte is the operand, unchanged. -/
theorem test_uregWr_sends_operand :
    (nextState (exec (.uregWr 0x86) { atStep .uregWr 3 with opnd := 0x86 })).map (fun t => t.req) =
      some (some (.write 0x86)) := by decide
/-- R145 (b): a refused address write sets ERR_ACK and the listing goes on. -/
theorem test_uregWr_nack :
    (nextState (exec (.uregWr 6) { waiting .uregWr 1 (.write 0x80) with busIn := nackAnswer })).map
      (fun t => (t.acc, t.seq, t.trace)) = some (0b0001, .run .uregWr 2, [.write 0x80 .nack]) := by decide
/-- R186 (c). -/
theorem test_snRd_commit :
    (nextState (exec (.snRd 0) { atStep .snRd 28 with
      snT := { b0 := 0x66, b1 := 0x55, b2 := 0x44, b3 := 0x33, b4 := 0x22, b5 := 0x11, b6 := 0x88, b7 := 0x77 } })).map
      (fun t => (t.hostRead 9, t.hostRead 10, t.snV)) = some (0x33445566, 0x77881122, true) := by decide
/-- R182 s24: the fourth byte of sequence 2 goes to position 7. -/
theorem test_snRd_position :
    (nextState (exec (.snRd 0) { waiting .snRd 24 (.read .ack) with busIn := ackAnswer })).map
      (fun t => (t.snT.b7, t.seq)) = some (0x5A, .run .snRd 25) := by decide
/-- R190 s4: the settle wait is a delay, with nothing on the bus. -/
theorem test_srst_settles :
    (nextState (exec (.srst 0) (atStep .srst 4))).map (fun t => (t.req, t.busy)) =
      some (some (.delay .settleDelay), true) := by decide
/-- R193 (a): ERR = 0x1 after a refused write, published at Commit. -/
theorem test_srst_commit :
    (nextState (exec (.srst 0) { atStep .srst 5 with acc := 0b0001 })).map (fun t => (t.hostRead 2, t.busy)) =
      some (0x00000001, false) := by decide

/-! ### The host's port -/

/-- The first step after reset runs a placed command word. -/
theorem test_withFetchWord :
    (nextState (step (State.reset.withFetchWord 32 0x000006E6))).map (fun t => (t.seq, t.opnd, t.hostRead 3)) =
      some (.run .uregWr 0, 0x06, 0x000000E6) := by decide
/-- `clr_status` clears ILL and OVR (R92, R25). -/
theorem test_clrStatus :
    (nextState (step { hostState clrStatus with ill := true, ovr := true, snV := true })).map (fun t => t.hostRead 1) =
      some 0x00000080 := by decide
/-- A read of a register never written gives no value (I15), though the register holds 0 (R44). -/
theorem test_unwritten_read :
    (nextState (step (hostState [.hr 5]))).map (fun t => (t.reads, t.hostRead 5, t.readsSafe)) =
      some ([{ addr := 5, value := none }], 0, false) := by decide
/-- The same read after RH_V was set gives the register's word. -/
theorem test_written_read :
    (nextState (step { hostState [.hr 5] with rhV := true, rhVal := 3590784 })).map (fun t => (t.reads, t.readsSafe)) =
      some ([{ addr := 5, value := some 3590784 }], true) := by decide
/-- A run that has ended (R233), and one whose operation still runs. -/
theorem test_runOver : (hostState []).runOver = true ∧ (atStep .srst 5).runOver = false ∧
    (hostState [.waitIdle]).runOver = false := by decide
/-- A read that is never answered leaves the operation where it is, and the host reads BUSY = 1 (R229). -/
theorem test_hold_stalls :
    (nextState (step { waiting .measTHold 5 (.read .ack) with agents := .silent, prog := [.waitIdle] })).map
      (fun t => (t.seq, t.req, t.prog, t.reads)) =
      some (.run .measTHold 5, some (.read .ack), [.waitIdle], [{ addr := 1, value := some 1 }]) := by decide

/-! ### Witnesses: encoding -/

theorem witness_AssemblerEmitsItsCommand :
    (Instr.uregWr 0xFF).wf = true ∧ (Instr.snRd 0).wf = true ∧ assemble (.snRd 1) = none := by decide

/-! ### Witnesses: steps -/

/-- The default order and a listed host move. -/
theorem witness_StepRunsTheIssuedCommand :
    (hostState [.hw 0 0x06E6]).seq = .idle ∧ (hostState [.hw 0 0x06E6]).issues 0x06E6 [] ∧
    ({ hostState [.hw 0 0xF5, .waitIdle] with moves := [.host, .sequencer] } : State).issues 0xF5 [.waitIdle] ∧
    decode 0x06E6 = .legal (.uregWr 0x06) := by
  unfold State.issues; decide

/-- The five kinds of step of a running command. -/
theorem witness_StepRunsTheRunningCommand :
    (atStep .uregRd 0).seq = .run .uregRd 0 ∧
    ({ atStep .uregRd 0 with moves := [.sequencer] } : State).req = none ∧
    ({ waiting .uregRd 1 (.write 0x80) with moves := [.bus nackAnswer] } : State).busPending = true ∧
    ({ waiting .srst 4 (.delay .settleDelay) with moves := [.timer] } : State).delayPending = true ∧
    (waiting .snRd 6 (.read .ack)).moves = [] ∧ (waiting .snRd 6 (.read .ack)).agents = .fair ∧
    ({ atStep .snRd 28 with agents := .silent } : State).req = none ∧ (waiting .snRd 6 (.read .ack)).busPending = true ∧
    (atStep .snRd 28).moves = [] ∧ (atStep .snRd 28).busPending = false := by decide

theorem witness_DisabledAgentsChangeNothing :
    ({ waiting .uregRd 1 (.write 0x80) with moves := [.sequencer] } : State).req ≠ none ∧
    ({ State.reset with moves := [.bus ackAnswer] } : State).busPending = false ∧
    ({ waiting .uregRd 1 (.write 0x80) with moves := [.timer] } : State).delayPending = false := by decide

/-- An accepted command, and an idle controller whose sequencer is told to move. -/
theorem witness_OnlyACommandWriteStartsAnOperation :
    (hostState [.hw 0 0xFE]).seq = .idle ∧ (nextState (step (hostState [.hw 0 0xFE]))).map State.busy = some true ∧
    ({ State.reset with moves := [.sequencer] } : State).hostMovesNext = false ∧
    ({ State.reset with moves := [.sequencer] } : State).resetsNext = false ∧
    (nextState (step { State.reset with moves := [.sequencer] })).isSome = true := by decide

/-! ### Witnesses: command issue -/

theorem witness_AcceptWritesLastOpAndOperand :
    (hostState [.hw 0 0xABCD5AF5]).seq = .idle ∧ (hostState [.hw 0 0xABCD5AF5]).issues 0xABCD5AF5 [] ∧
    decode 0xABCD5AF5 = .legal (.measRh 0x5A) := by
  unfold State.issues; decide

theorem witness_EveryCommandIsAcceptedWhenIdle : (hostState []).seq = .idle := by decide

theorem witness_IllegalCommandSetsIllOnly :
    (hostState [.hw 0 0xFF]).seq = .idle ∧ (hostState [.hw 0 0xFF]).issues 0xFF [] ∧ decode 0xFF = .illegal 0xFF := by
  unfold State.issues; decide

theorem witness_OverrunSetsOvrOnly :
    ({ atStep .measT 3 with moves := [.host], prog := [.hw 0 0x00] } : State).seq ≠ .idle ∧
    ({ atStep .measT 3 with moves := [.host], prog := [.hw 0 0x00] } : State).issues 0x00 [] := by
  unfold State.issues; decide

theorem witness_AnotherCommandIsDropped :
    (atStep .measT 3).seq = .run .measT 3 ∧ Op.measT ≠ opOf (.srst 0) := by decide

theorem witness_OvrAndIllAreSetOnlyByCommandWrites :
    (nextState (step { atStep .measT 3 with moves := [.host], prog := [.hw 0 0xF3] })).map State.ovr = some true ∧
    (nextState (step (hostState [.hw 0 0x00]))).map State.ill = some true := by decide

/-! ### Witnesses: the host's port -/

theorem witness_HostReadChangesNothing :
    (hostState [.hr 15]).hostMovesNext = true ∧ (hostState [.hr 15]).prog = .hr 15 :: [] := by decide

theorem witness_StatusWriteClearsIllAndOvr :
    (hostState [.hw 1 6]).hostMovesNext = true ∧ (hostState [.hw 1 6]).prog = .hw haddrStatus 6 :: [] := by decide

theorem witness_OtherWritesAreIgnored :
    (hostState [.hw 2 7, .hw 15 7]).hostMovesNext = true ∧ (2 : HAddr) ≠ 0 ∧ (2 : HAddr) ≠ 1 ∧
    (15 : HAddr) ≠ 0 ∧ (15 : HAddr) ≠ 1 ∧ (hostState [.hw 2 7, .hw 15 7]).prog = .hw 2 7 :: [.hw 15 7] := by decide

/-- `wait_idle`, idle and busy; the read-modify-write line with `e` zero (UREG written and not), not zero, without a value,
and with no read before it. -/
theorem witness_WaitIdleAndReadModifyWrite :
    let rmw := fun reads : List HostRead => ({ hostState [.rmwUreg 0x81 0x01] with reads := reads } : State)
    (hostState [.waitIdle]).hostMovesNext = true ∧
    ({ atStep .srst 5 with moves := [.host], prog := [.waitIdle] } : State).hostMovesNext = true ∧
    (rmw []).hostMovesNext = true ∧ (rmw []).prog = .rmwUreg 0x81 0x01 :: [] ∧ (rmw []).reads = [] ∧
    (rmw [{ addr := 2, value := some 0 }]).reads = [] ++ [{ addr := 2, value := some 0 }] ∧
    (rmw [{ addr := 2, value := some 0 }]).uregV = false ∧
    ({ rmw [{ addr := 2, value := some 0 }] with uregV := true, ureg := 0x02 } : State).hostMovesNext = true ∧
    (rmw [{ addr := 2, value := some 4 }]).reads = [] ++ [{ addr := 2, value := some 4 }] ∧
    (some 4 : Option Word) ≠ some 0 ∧ (none : Option Word) ≠ some 0 := by decide

/-! ### Witnesses: the sequencer and the bus -/

theorem witness_SequencerIssuesTheListedCall :
    (atStep .snRd 13).atMicro .snRd 13 ∧ (listingOf .snRd)[13]? = some (.read .nack .discard 14) ∧
    (atStep .srst 4).atMicro .srst 4 ∧ (listingOf .srst)[4]? = some (.delay .settleDelay 5) := by
  unfold State.atMicro; decide

/-- Every accumulated write but the first of a listing has one of these answers. -/
theorem witness_AccumulatedWriteAddsItsFlag :
    ({ waiting .uregWr 3 (.write 6) with busIn := collAnswer } : State).waits .uregWr 3 (.write 6) ∧
    ({ waiting .uregWr 3 (.write 6) with busIn := nackAnswer } : State).waits .uregWr 3 (.write 6) ∧
    ({ waiting .uregWr 3 (.write 6) with busIn := ackAnswer } : State).waits .uregWr 3 (.write 6) ∧
    (listingOf .uregWr)[3]? = some (.writeAcc .opnd 4) := by
  unfold State.waits; decide

theorem witness_BusReadStoresItsByte :
    (waiting .measRh 8 (.read .nack)).waits .measRh 8 (.read .nack) ∧
    (listingOf .measRh)[8]? = some (.read .nack .c 9) := by
  unfold State.waits; decide

theorem witness_BeginEndAndDelayChangeNoRegister :
    (listingOf .srst)[0]? = some (.busBegin 1) ∧ (waiting .srst 0 .busBegin).waits .srst 0 .busBegin ∧
    (listingOf .srst)[3]? = some (.busEnd 4) ∧ (waiting .srst 3 .busEnd).waits .srst 3 .busEnd ∧
    (listingOf .srst)[4]? = some (.delay .settleDelay 5) ∧
    (waiting .srst 4 (.delay .settleDelay)).waits .srst 4 (.delay .settleDelay) := by
  unfold State.waits; decide

/-- Acknowledged; refused with one attempt left; refused at the last attempt, with CONTINUE and with SKIP. -/
theorem witness_PollingAttemptBranches :
    ({ waiting .measRh 4 (.write 0x81) with busIn := ackAnswer } : State).waits
      (opOf (pollCommand .rh 0)) 4 (.write 0x81) ∧
    ({ waiting .measT 4 (.write 0x81) with k := 198, busIn := nackAnswer } : State).waits
      (opOf (pollCommand .t 0)) 4 (.write 0x81) ∧
    ({ waiting .measT 4 (.write 0x81) with k := 199, busIn := collAnswer } : State).waits
      (opOf (pollCommand .t 0)) 4 (.write 0x81) ∧
    ({ waiting .measRh 4 (.write 0x81) with
        k := 199, busIn := nackAnswer, params := ⟨.wire, .skip, .ack⟩ } : State).waits
      (opOf (pollCommand .rh 0)) 4 (.write 0x81) := by
  unfold State.waits; decide

/-! ### Witnesses: Commit -/

theorem witness_UregRdCommitPublishesTheByte : (atStep .uregRd 8).atMicro .uregRd 8 := by
  unfold State.atMicro; decide
theorem witness_UregWrAndSrstCommitPublishOnlyErr :
    (atStep .uregWr 5).atMicro .uregWr 5 ∧ (atStep .srst 5).atMicro .srst 5 := by
  unfold State.atMicro; decide
theorem witness_MeasRhCommitPublishesHumidity : (atStep .measRh 11).atMicro .measRh 11 := by
  unfold State.atMicro; decide
theorem witness_MeasTCommitPublishesTemperature : (atStep .measT 11).atMicro .measT 11 := by
  unfold State.atMicro; decide
theorem witness_SkippedMeasurementCommitsAttemptsOnly :
    (atStep .measRh 12).atMicro (opOf (pollCommand .rh 0)) 12 ∧
    (atStep .measT 12).atMicro (opOf (pollCommand .t 0)) 12 := by
  unfold State.atMicro; decide
theorem witness_HoldCommitsLeaveAttempts :
    (atStep .measRhHold 9).atMicro .measRhHold 9 ∧ (atStep .measTHold 9).atMicro .measTHold 9 := by
  unfold State.atMicro; decide
theorem witness_SnRdCommitPublishesEightBytes : (atStep .snRd 28).atMicro .snRd 28 := by
  unfold State.atMicro; decide
theorem witness_StrategiesAgreeOnTheSameBytes :
    (nextState (exec (pollCommand .rh 0)
      { State.reset with seq := .run (opOf (pollCommand .rh 0)) 11, req := none })).isSome = true ∧
    (nextState (exec (holdCommand .rh 0)
      { State.reset with seq := .run (opOf (holdCommand .rh 0)) 9, req := none })).isSome = true := by decide

/-! ### Witnesses: whole operations -/

/-- An idle controller about to run the command word `w` with these bus answers. -/
def runState (w : Word) (moves : List Move) : State :=
  { hostState [.hw haddrCmd w] with moves := .host :: moves }

theorem witness_UregRdRunsItsListing :
    (runState 0xE7 (callMoves (List.replicate 8 nackAnswer) ++ [.sequencer])).seq = .idle ∧
    (runState 0xE7 (callMoves (List.replicate 8 nackAnswer) ++ [.sequencer])).req = none ∧
    (runState 0xE7 (callMoves (List.replicate 8 nackAnswer) ++ [.sequencer])).moves =
      .host :: (callMoves [nackAnswer, nackAnswer, nackAnswer, nackAnswer, nackAnswer,
        nackAnswer, nackAnswer, nackAnswer] ++ .sequencer :: []) ∧
    (runState 0xE7 (callMoves (List.replicate 8 nackAnswer) ++ [.sequencer])).prog = .hw haddrCmd 0xE7 :: [] ∧
    decode 0xE7 = .legal (.uregRd 0) := by decide

theorem witness_UregWrRunsItsListing :
    (runState 0xFFE6 (callMoves (List.replicate 5 collAnswer) ++ [.sequencer])).seq = .idle ∧
    (runState 0xFFE6 (callMoves (List.replicate 5 collAnswer) ++ [.sequencer])).req = none ∧
    (runState 0xFFE6 (callMoves (List.replicate 5 collAnswer) ++ [.sequencer])).moves =
      .host :: (callMoves [collAnswer, collAnswer, collAnswer, collAnswer, collAnswer] ++ .sequencer :: []) ∧
    (runState 0xFFE6 (callMoves (List.replicate 5 collAnswer) ++ [.sequencer])).prog = .hw haddrCmd 0xFFE6 :: [] ∧
    decode 0xFFE6 = .legal (.uregWr 0xFF) := by decide

theorem witness_SrstRunsItsListing :
    (runState 0xFE (callMoves (List.replicate 4 ackAnswer) ++ [.sequencer, .timer, .sequencer])).seq = .idle ∧
    (runState 0xFE (callMoves (List.replicate 4 ackAnswer) ++ [.sequencer, .timer, .sequencer])).req = none ∧
    (runState 0xFE (callMoves (List.replicate 4 ackAnswer) ++ [.sequencer, .timer, .sequencer])).moves =
      .host :: (callMoves [ackAnswer, ackAnswer, ackAnswer, ackAnswer] ++ .sequencer :: .timer :: .sequencer :: []) ∧
    (runState 0xFE (callMoves (List.replicate 4 ackAnswer) ++ [.sequencer, .timer, .sequencer])).prog =
      .hw haddrCmd 0xFE :: [] ∧
    decode 0xFE = .legal (.srst 0) := by decide

theorem witness_HoldMeasurementRunsItsListing :
    (runState 0xE5 (callMoves (List.replicate 9 ackAnswer) ++ [.sequencer])).seq = .idle ∧
    (runState 0xE5 (callMoves (List.replicate 9 ackAnswer) ++ [.sequencer])).req = none ∧
    (runState 0xE5 (callMoves (List.replicate 9 ackAnswer) ++ [.sequencer])).moves =
      .host :: (callMoves [ackAnswer, ackAnswer, ackAnswer, ackAnswer, ackAnswer,
        ackAnswer, ackAnswer, ackAnswer, ackAnswer] ++ .sequencer :: []) ∧
    (runState 0xE5 (callMoves (List.replicate 9 ackAnswer) ++ [.sequencer])).prog = .hw haddrCmd 0xE5 :: [] ∧
    decode 0xE5 = .legal (holdCommand .rh 0) ∧ decode 0xE3 = .legal (holdCommand .t 0) := by decide

theorem witness_SnRdRunsBothBanks :
    (runState 0xFA (callMoves (List.replicate 28 ackAnswer) ++ [.sequencer])).seq = .idle ∧
    (runState 0xFA (callMoves (List.replicate 28 ackAnswer) ++ [.sequencer])).req = none ∧
    (runState 0xFA (callMoves (List.replicate 28 ackAnswer) ++ [.sequencer])).moves =
      .host :: (callMoves (List.replicate 28 ackAnswer) ++ .sequencer :: []) ∧
    (runState 0xFA (callMoves (List.replicate 28 ackAnswer) ++ [.sequencer])).prog = .hw haddrCmd 0xFA :: [] ∧
    decode 0xFA = .legal (.snRd 0) := by decide

/-- The moves of a polled measurement: its trigger phase, its refused attempts, its last calls and its Commit. -/
def pollMoves (fails : List (BusAnswer × BusAnswer)) (last : List BusAnswer) : List Move :=
  callMoves [ackAnswer, nackAnswer, ackAnswer] ++ fails.flatMap failedAttemptMoves ++ callMoves last ++ .sequencer :: []

/-- 199 refused attempts. -/
def refused : List (BusAnswer × BusAnswer) := List.replicate 199 (ackAnswer, nackAnswer)

theorem refused_resp : ∀ p ∈ refused, p.2.resp ≠ .ack := by
  intro p hp
  rw [List.eq_of_mem_replicate hp]
  decide

/-- A success at attempt 3 and one at attempt 200. -/
theorem witness_PolledMeasurementSucceeds :
    let last := [ackAnswer, ackAnswer, nackAnswer, collAnswer, ackAnswer, ackAnswer]
    let fails := [(ackAnswer, nackAnswer), (ackAnswer, collAnswer)]
    (runState 0xF5 (pollMoves fails last)).seq = .idle ∧ (runState 0xF5 (pollMoves fails last)).req = none ∧
    (runState 0xF5 (pollMoves fails last)).prog = .hw haddrCmd 0xF5 :: [] ∧
    decode 0xF5 = .legal (pollCommand .rh 0) ∧ decode 0xF3 = .legal (pollCommand .t 0) ∧
    fails.length < 200 ∧ refused.length < 200 ∧ (∀ p ∈ fails, p.2.resp ≠ .ack) ∧ (∀ p ∈ refused, p.2.resp ≠ .ack) ∧
    ackAnswer.resp = .ack ∧
    (runState 0xF5 (pollMoves refused last)).moves =
      .host :: (callMoves [ackAnswer, nackAnswer, ackAnswer] ++ refused.flatMap failedAttemptMoves ++
        callMoves last ++ .sequencer :: []) :=
  ⟨rfl, rfl, rfl, by decide, by decide, by decide, by unfold refused; rw [List.length_replicate]; decide,
    by decide, refused_resp, rfl, rfl⟩

theorem witness_PolledMeasurementTimesOutAndReads :
    let s := runState 0xF3 (pollMoves refused [ackAnswer, collAnswer, ackAnswer, ackAnswer, ackAnswer, ackAnswer])
    s.seq = .idle ∧ s.req = none ∧ s.prog = .hw haddrCmd 0xF3 :: [] ∧ decode 0xF3 = .legal (pollCommand .t 0) ∧
    s.params.timeoutReads = .continue ∧ refused.length = 199 ∧ (∀ p ∈ refused, p.2.resp ≠ .ack) ∧
    collAnswer.resp ≠ .ack ∧
    s.moves = .host :: (callMoves [ackAnswer, nackAnswer, ackAnswer] ++ refused.flatMap failedAttemptMoves ++
      callMoves [ackAnswer, collAnswer, ackAnswer, ackAnswer, ackAnswer, ackAnswer] ++ .sequencer :: []) :=
  ⟨rfl, rfl, rfl, by decide, rfl, List.length_replicate, refused_resp, by decide, rfl⟩

theorem witness_PolledMeasurementTimesOutAndSkips :
    let s := { runState 0xF5 (pollMoves refused [ackAnswer, nackAnswer, ackAnswer]) with params := ⟨.wire, .skip, .ack⟩ }
    s.seq = .idle ∧ s.req = none ∧ s.prog = .hw haddrCmd 0xF5 :: [] ∧ decode 0xF5 = .legal (pollCommand .rh 0) ∧
    s.params.timeoutReads = .skip ∧ refused.length = 199 ∧ (∀ p ∈ refused, p.2.resp ≠ .ack) ∧
    nackAnswer.resp ≠ .ack ∧
    s.moves = .host :: (callMoves [ackAnswer, nackAnswer, ackAnswer] ++ refused.flatMap failedAttemptMoves ++
      callMoves [ackAnswer, nackAnswer, ackAnswer] ++ .sequencer :: []) :=
  ⟨rfl, rfl, rfl, by decide, rfl, List.length_replicate, refused_resp, by decide, rfl⟩

/-! ### Witnesses: CRC and conversion -/

theorem witness_CrcIsLinear : ([0x68, 0x3A] : List Byte).length = ([0xFF, 0x01] : List Byte).length := by decide
set_option maxRecDepth 10000 in
theorem witness_SingleBitFlipFailsValidation :
    validate .wire [0x02] 0x62 = .noError ∧ validate .reverseWire [0x02] 0x62 = .noError ∧
    validate .wire [0x68, 0x3A] 0x7C = .noError ∧ validate .reverseWire [0x68, 0x3A] 0x5E = .noError := by decide
theorem witness_StatusBitsDoNotChangeTheValue : (0x7C80#16 : Raw) >>> 2 = 0x7C83#16 >>> 2 := by decide

/-! ### Witnesses: whole-machine rules -/

theorem witness_ControllerResetAbandonsTheOperation :
    ({ waiting .srst 4 (.delay .settleDelay) with moves := [.reset] } : State).moves = .reset :: [] := by decide

/-- An accepted command meets the invariant. -/
theorem witness_accepted_inv : (accept (.measRh 0x5A) State.reset).Inv where
  paramsWf := by decide
  noUnitFlag := by decide
  sequencer := by refine ⟨by decide, .inl rfl⟩
  flags := by refine ⟨by decide, ?_⟩; unfold flagsWithin; decide
  poll := by
    intro _
    refine ⟨⟨rfl, rfl⟩, ?_⟩
    intro _
    decide
  results := by unfold resultsSound; decide

/-- A measurement whose 200 attempts failed, at its Commit. -/
def timedOut : State := { atStep .measRh 11 with k := 200, ready := false, acc := 0b0010 }

theorem witness_timedOut_inv : timedOut.Inv where
  paramsWf := by decide
  noUnitFlag := by decide
  sequencer := by refine ⟨by decide, .inl rfl⟩
  flags := by refine ⟨by decide, ?_⟩; unfold flagsWithin; decide
  poll := by
    intro _
    refine ⟨?_, ?_⟩
    · unfold pollSoundAt; decide
    · intro _; decide
  results := by unfold resultsSound; decide

/-- A user-register read at its Commit. -/
theorem witness_uregRd_inv : (atStep .uregRd 8).Inv where
  paramsWf := by decide
  noUnitFlag := by decide
  sequencer := by refine ⟨by decide, .inl rfl⟩
  flags := by refine ⟨by decide, ?_⟩; unfold flagsWithin; decide
  poll := by intro h; cases h
  results := by unfold resultsSound; decide

theorem witness_EveryStepKeepsTheInvariant :
    (accept (.measRh 0x5A) State.reset).Inv ∧ (nextState (step (accept (.measRh 0x5A) State.reset))).isSome = true :=
  ⟨witness_accepted_inv, by decide⟩

theorem witness_NoStepStops : (accept (.measRh 0x5A) State.reset).Inv := witness_accepted_inv

theorem witness_EveryOperationReachesCommit :
    (accept (.measRh 0x5A) State.reset).Inv ∧ (accept (.measRh 0x5A) State.reset).busy = true ∧
    (accept (.measRh 0x5A) State.reset).moves = [] ∧ (accept (.measRh 0x5A) State.reset).agents = .fair ∧
    (accept (.measRh 0x5A) State.reset).prog = [] :=
  ⟨witness_accepted_inv, by decide, by decide, by decide, by decide⟩

/-- An idle step, a step that leaves the controller busy, and a step of a busy controller. -/
theorem witness_ResultsChangeOnlyAtCommit :
    (hostState [.hr 4]).resetsNext = false ∧ (hostState [.hr 4]).busy = false ∧
    (nextState (step (hostState [.hr 4]))).isSome = true ∧
    (atStep .snRd 0).resetsNext = false ∧ (atStep .snRd 0).busy = true ∧
    (nextState (step (atStep .snRd 0))).map State.busy = some true := by decide

theorem witness_CommandsChangeOnlyTheirOutputs :
    (nextState (exec (.snRd 0) (atStep .snRd 28))).isSome = true ∧
    haddrRhRaw ∉ (opOf (.snRd 0)).outputs ∧ haddrTRaw ∉ (opOf (.snRd 0)).outputs ∧
    haddrUreg ∉ (opOf (.snRd 0)).outputs ∧ haddrSnLo ∉ (opOf (.srst 0)).outputs := by decide

/-- Each valid bit is set by the Commit of an operation of its group. -/
theorem witness_ValidBitsAreSetByCommitClearedByReset :
    (nextState (step (atStep .measRhHold 9))).map State.rhV = some true ∧ (atStep .measRhHold 9).rhV = false ∧
    (nextState (step (atStep .measT 11))).map State.tV = some true ∧ (atStep .measT 11).tV = false ∧
    (nextState (step (atStep .uregRd 8))).map State.uregV = some true ∧ (atStep .uregRd 8).uregV = false ∧
    (nextState (step (atStep .snRd 28))).map State.snV = some true ∧ (atStep .snRd 28).snV = false ∧
    (atStep .snRd 28).resetsNext = false ∧
    ({ hostState [.hr 1] with rhV := true, tV := true, uregV := true, snV := true } : State).resetsNext = false := by decide

theorem witness_TraceIsOnlyAppendedTo :
    (nextState (step { waiting .uregWr 1 (.write 0x80) with moves := [.bus nackAnswer] })).map State.trace =
      some [.write 0x80 .nack] := by decide

/-- A pending write kept by a step, and a hold-master read that is never answered. -/
theorem witness_APendingCallIsNotReplaced :
    ({ waiting .measRhHold 5 (.read .ack) with agents := .silent, prog := [.hw 0 0xFE, .waitIdle] } : State).stuck =
      true ∧
    ({ waiting .uregWr 1 (.write 0x80) with moves := [.sequencer] } : State).req = some (.write 0x80) ∧
    (nextState (step { waiting .uregWr 1 (.write 0x80) with moves := [.sequencer] })).map State.req =
      some (some (.write 0x80)) := by decide

set_option maxRecDepth 10000 in
theorem witness_TimeoutFlagMeansTheBudgetIsSpent :
    timedOut.Inv ∧ timedOut.params.collFlag ≠ .timeout ∧ timedOut.seq = .run (opOf (pollCommand .rh 0)) 11 ∧
    (nextState (exec (pollCommand .rh 0) timedOut)).map (fun t => (t.seq, t.err.getLsbD 1)) = some (.idle, true) :=
  ⟨witness_timedOut_inv, by decide, by decide, by decide⟩

theorem witness_OperationsPublishOnlyTheirFlags :
    (atStep .uregRd 8).Inv ∧ (atStep .uregRd 8).params.collFlag = .ack ∧
    (atStep .uregRd 8).seq = .run (opOf (.uregRd 0)) 8 ∧
    (nextState (exec (.uregRd 0) (atStep .uregRd 8))).map State.seq = some .idle ∧
    (opOf (.uregRd 0)).polls = false ∧ (opOf (.snRd 0)).validates = false :=
  ⟨witness_uregRd_inv, by decide, by decide, by decide, by decide, by decide⟩

end Sys2Proof.Tests
end

/-! # The error flags -/

namespace Sys2Proof.Machine

/-- Flag by flag: every flag of `x` is one of `a`. -/
theorem flagsWithin_iff {x a : BitVec 4} :
    flagsWithin x a ↔ ∀ j, x.getLsbD j = true → a.getLsbD j = true := by
  unfold flagsWithin
  constructor
  · intro h j hj
    have hbit := congrArg (fun y => y.getLsbD j) h
    have hlt : j < 4 := BitVec.lt_of_getLsbD hj
    simpa [hj, hlt] using hbit
  · intro h
    apply BitVec.eq_of_getLsbD_eq
    intro j _
    cases hj : x.getLsbD j <;> simp [hj, h j]

theorem flagsWithin_zero (a : BitVec 4) : flagsWithin 0 a :=
  flagsWithin_iff.2 (by simp)

theorem flagsWithin_or {x y a : BitVec 4} (hx : flagsWithin x a) (hy : flagsWithin y a) :
    flagsWithin (x ||| y) a := by
  rw [flagsWithin_iff] at *
  intro j hj
  rw [BitVec.getLsbD_or, Bool.or_eq_true] at hj
  exact hj.elim (hx j) (hy j)

theorem flagsWithin_left {x a : BitVec 4} (h : flagsWithin x a) (b : BitVec 4) : flagsWithin x (a ||| b) := by
  rw [flagsWithin_iff] at *
  intro j hj
  simp [h j hj]

theorem flagsWithin_right (b a : BitVec 4) : flagsWithin a (b ||| a) :=
  flagsWithin_iff.2 (by simp +contextual)

/-- A flag that is not allowed is not set. -/
theorem flagsWithin_false {x a : BitVec 4} {j : Nat} (h : flagsWithin x a) (hj : a.getLsbD j = false) :
    x.getLsbD j = false := by
  cases hx : x.getLsbD j
  · rfl
  · rw [flagsWithin_iff.1 h j hx] at hj
    cases hj

/-- An answer to an accumulated write adds only flags that every operation may raise (R110). -/
theorem respFlags_within (p : Params) (r : WriteResp) (op : Op) : flagsWithin (respFlags p r) (runFlags p op) := by
  apply flagsWithin_left
  cases r with
  | ack => exact flagsWithin_zero _
  | nack => exact flagsWithin_left (flagsWithin_iff.2 fun _ h => h) _
  | coll => exact flagsWithin_right _ _

/-- Only a collision reported as a timeout lets a write's answer add ERR_TIMEOUT. -/
theorem respFlags_timeout {p : Params} (h : p.collFlag ≠ .timeout) (r : WriteResp) :
    (respFlags p r).getLsbD 1 = false := by
  cases r with
  | ack => simp [respFlags]
  | nack => simp [respFlags, errBit]
  | coll => cases hc : p.collFlag <;> simp_all [respFlags, errBit]

/-- An operation that does not poll raises ERR_TIMEOUT only for a collision reported as one. -/
theorem runFlags_timeout {p : Params} (h : p.collFlag ≠ .timeout) {op : Op} (hp : op.polls = false) :
    (runFlags p op).getLsbD 1 = false := by
  cases hc : p.collFlag <;> simp_all [runFlags, writeFlags, errBit]

/-- No operation raises ERR_UNIT (R26). -/
theorem publishedFlags_unit {p : Params} (h : p.wf = true) (op : Op) : (publishedFlags p op).getLsbD 3 = false := by
  cases hc : p.collFlag <;> cases hp : op.polls <;> cases hv : op.validates <;>
    simp_all [publishedFlags, runFlags, writeFlags, errBit, Params.wf]

/-! # The listings -/

/-- The micro-steps that may follow a micro-step (R13). -/
def Micro.successors : Micro → List Nat
  | .busBegin next => [next]
  | .busEnd next => [next]
  | .writeAcc _ next => [next]
  | .attempt data wait skip => [data, wait, skip]
  | .read _ _ next => [next]
  | .delay _ next => [next]
  | .commit _ => []

/-- An answered call goes on to a successor of its micro-step. -/
theorem answer_successor {op : Op} {m : Micro} (c : Call) (s : State) (h : ∀ what, m ≠ .commit what) :
    ∃ j ∈ m.successors, (answer op m c s).seq = .run op j := by
  cases m with
  | attempt data wait skip =>
    rcases afterAttempt_cases data wait skip op (countAttempt s.busIn.resp (record c s)) with
      ⟨_, e⟩ | ⟨_, _, e⟩ | ⟨_, _, _, e⟩ | ⟨_, _, _, e⟩ <;> simp [answer, deliver, e, Micro.successors]
  | commit what => exact absurd rfl (h what)
  | _ => exact ⟨_, List.mem_singleton.2 rfl, rfl⟩

theorem listingOf_length_pos (op : Op) : 0 < (listingOf op).length := by cases op <;> decide

/-- No micro-step leads out of its listing (R38). -/
theorem successor_lt_length (op : Op) : ∀ m ∈ listingOf op, ∀ j ∈ m.successors, j < (listingOf op).length := by
  cases op <;> decide

/-- The polling attempt is micro-step 4 of MEAS_POLL and of no other listing (R152). -/
theorem attempt_of_listing {op : Op} {n data wait skip : Nat}
    (h : (listingOf op)[n]? = some (.attempt data wait skip)) :
    op.polls = true ∧ n = 4 ∧ data = 6 ∧ wait = 5 ∧ skip = 10 := by
  have hn : n < (listingOf op).length := (List.getElem?_eq_some_iff.1 h).1
  cases op <;>
    simp [listingOf, holdListing, pollListing, uregRdListing, uregWrListing, snRdListing, snBank1, snBank2,
      srstListing] at h hn <;>
    interval_cases n <;> simp_all [Op.polls]

/-- The edges of MEAS_POLL other than those of the attempt (R152). -/
def pollEdges : List (Nat × Nat) :=
  [(0, 1), (1, 2), (2, 3), (3, 4), (5, 3), (6, 7), (7, 8), (8, 9), (9, 11), (10, 12)]

theorem listingOf_polls {op : Op} (hp : op.polls = true) : ∃ kind, listingOf op = pollListing kind := by
  cases op with
  | measT => exact ⟨.t, rfl⟩
  | measRh => exact ⟨.rh, rfl⟩
  | _ => cases hp

theorem successor_mem_pollEdges {op : Op} {n j : Nat} {m : Micro} (hp : op.polls = true)
    (hm : (listingOf op)[n]? = some m) (ha : ∀ data wait skip, m ≠ .attempt data wait skip)
    (hj : j ∈ m.successors) : (n, j) ∈ pollEdges := by
  obtain ⟨kind, e⟩ := listingOf_polls hp
  rw [e] at hm
  have hn : n < 13 := (List.getElem?_eq_some_iff.1 hm).1
  interval_cases n <;> cases hm <;> simp_all [Micro.successors, pollEdges]

/-! # Commits -/

/-- The Commit writes ATTEMPTS (R152). -/
def Commit.writesAttempts : Commit → Bool
  | .nothing => false
  | .ureg => false
  | .polled _ => true
  | .attemptsOnly => true
  | .held _ => false
  | .serial => false

/-- The Commit validates a checksum (R133, R134). -/
def Commit.validates : Commit → Bool
  | .nothing => false
  | .ureg => true
  | .polled _ => true
  | .attemptsOnly => false
  | .held _ => true
  | .serial => false

/-- The host registers a Commit assigns, beside STATUS and ERR (R113). -/
def Commit.writes : Commit → List HAddr
  | .nothing => []
  | .ureg => [haddrUreg]
  | .polled .rh => [haddrRhRaw, haddrRhVal, haddrAttempts]
  | .polled .t => [haddrTRaw, haddrTVal, haddrAttempts]
  | .attemptsOnly => [haddrAttempts]
  | .held .rh => [haddrRhRaw, haddrRhVal]
  | .held .t => [haddrTRaw, haddrTVal]
  | .serial => [haddrSnLo, haddrSnHi]

/-- The Commits that write ATTEMPTS are the polling operations', only a validating operation's Commit validates, and a
Commit assigns only outputs of its operation. -/
theorem commit_of_listing_kind {op : Op} {n : Nat} {what : Commit} (h : (listingOf op)[n]? = some (.commit what)) :
    what.writesAttempts = op.polls ∧ (what.validates = true → op.validates = true) ∧ what.writes ⊆ op.outputs := by
  rcases commit_of_listing op n what h with ⟨rfl, _, rfl⟩ | ⟨rfl, _, rfl⟩ | ⟨rfl, _, rfl⟩ | ⟨rfl, _, rfl⟩ |
    ⟨rfl, _, rfl⟩ | ⟨rfl, _, rfl⟩ | ⟨rfl, _, rfl⟩ | ⟨rfl, _, rfl⟩ | ⟨rfl, _, rfl⟩ | ⟨rfl, _, rfl⟩ <;> decide

theorem commit_attempts (what : Commit) (s : State) :
    (commit what s).attempts = if what.writesAttempts then s.k else s.attempts := by
  cases what <;> simp [commit, Commit.assign, Commit.writesAttempts]

/-- The validator leaves acc or adds ERR_CRC to it (R133). -/
theorem checkCrc_acc_or (wire : List Byte) (s : State) :
    (checkCrc wire s).acc = s.acc ∨ (checkCrc wire s).acc = s.acc ||| errBit .crc := by
  rw [checkCrc_acc]
  split
  · exact .inl rfl
  · exact .inr rfl

/-- The Error Code a Commit publishes is acc, with ERR_CRC where its validation fails (R113, R133). -/
theorem commit_err (what : Commit) (s : State) :
    (commit what s).err = s.acc ∨ what.validates = true ∧ (commit what s).err = s.acc ||| errBit .crc := by
  cases what with
  | nothing => exact .inl rfl
  | attemptsOnly => exact .inl rfl
  | serial => exact .inl rfl
  | ureg => exact (checkCrc_acc_or [s.d0] s).imp_right fun e => ⟨rfl, e⟩
  | polled kind =>
    exact (checkCrc_acc_or [s.d0, s.d1] s).imp (writeMeasurement_acc kind _).trans
      fun e => ⟨rfl, (writeMeasurement_acc kind _).trans e⟩
  | held kind =>
    exact (checkCrc_acc_or [s.d0, s.d1] s).imp (writeMeasurement_acc kind _).trans
      fun e => ⟨rfl, (writeMeasurement_acc kind _).trans e⟩

/-- A Commit publishes only flags of its operation (R201). -/
theorem commit_err_within {op : Op} {n : Nat} {what : Commit} {s : State}
    (hm : (listingOf op)[n]? = some (.commit what)) (ha : flagsWithin s.acc (runFlags s.params op)) :
    flagsWithin (commit what s).err (publishedFlags s.params op) := by
  obtain ⟨-, hv, -⟩ := commit_of_listing_kind hm
  have hacc : flagsWithin s.acc (publishedFlags s.params op) := flagsWithin_left ha _
  rcases commit_err what s with e | ⟨hw, e⟩
  · rw [e]; exact hacc
  · rw [e]
    refine flagsWithin_or hacc ?_
    simp only [publishedFlags, hv hw, if_true]
    exact flagsWithin_right _ _

/-- Validation adds ERR_CRC alone: ERR_TIMEOUT is published exactly where acc holds it. -/
theorem commit_err_timeout (what : Commit) (s : State) : (commit what s).err.getLsbD 1 = s.acc.getLsbD 1 := by
  rcases commit_err what s with e | ⟨_, e⟩ <;> simp [e, errBit]

/-- A step of a listing that ends in IDLE is its Commit (R113). -/
theorem microStep_idle {op : Op} {l : Listing} {n : Nat} {s t : State} (hs : s.seq = .run op n)
    (h : microStep op l n s = .next t) (ht : t.seq = .idle) :
    ∃ what, l[n]? = some (.commit what) ∧ s.req = none ∧ t = commit what s := by
  obtain ⟨m, hm, ⟨what, rfl, hr, e⟩ | ⟨_, _, rfl⟩ | ⟨c, _, rfl⟩⟩ := microStep_cases h
  · exact ⟨what, hm, hr, e⟩
  · simp [hs] at ht
  · exfalso
    by_cases hc : ∃ what, m = .commit what
    · obtain ⟨what, rfl⟩ := hc
      simp [answer, deliver, hs] at ht
    · obtain ⟨j, -, hj⟩ := answer_successor (op := op) c s (not_exists.1 hc)
      rw [hj] at ht
      cases ht

/-! # The polling loop -/

/-- `pollSoundAt` reads k, ready, the parameters, and ERR_TIMEOUT, which may also be new. -/
theorem pollSoundAt_mono {n : Nat} {s t : State} (hk : t.k = s.k) (hr : t.ready = s.ready) (hp : t.params = s.params)
    (ha : s.acc.getLsbD 1 = true → t.acc.getLsbD 1 = true) (h : pollSoundAt n s) : pollSoundAt n t := by
  unfold pollSoundAt at *
  rw [hk, hr, hp]
  split_ifs at h ⊢
  · exact h
  · exact h
  · exact h
  · obtain ⟨h1, h2, h3, h4⟩ := h
    exact ⟨h1, h2, h3, ha h4⟩
  · obtain ⟨h1, h2, h3⟩ := h
    refine ⟨h1, h2, fun hf => ?_⟩
    obtain ⟨h4, h5, h6⟩ := h3 hf
    exact ⟨h4, h5, ha h6⟩

/-- What holds at a micro-step holds at the next one, whatever edge of the loop leads there. -/
theorem pollSoundAt_edge {n j : Nat} {s : State} (h : (n, j) ∈ pollEdges) (hs : pollSoundAt n s) : pollSoundAt j s := by
  simp only [pollEdges, List.mem_cons, Prod.mk.injEq, List.not_mem_nil, or_false] at h
  rcases h with ⟨rfl, rfl⟩ | ⟨rfl, rfl⟩ | ⟨rfl, rfl⟩ | ⟨rfl, rfl⟩ | ⟨rfl, rfl⟩ | ⟨rfl, rfl⟩ | ⟨rfl, rfl⟩ | ⟨rfl, rfl⟩ |
    ⟨rfl, rfl⟩ | ⟨rfl, rfl⟩ <;> simp_all [pollSoundAt, pollBudget]

/-- An answered call other than an attempt only adds a write's flags to acc (R110, R111). -/
theorem answer_working {op : Op} {m : Micro} (c : Call) (s : State)
    (ha : ∀ data wait skip, m ≠ .attempt data wait skip) :
    (answer op m c s).k = s.k ∧ (answer op m c s).ready = s.ready ∧
      ∃ f, (f = 0 ∨ f = respFlags s.params s.busIn.resp) ∧ (answer op m c s).acc = s.acc ||| f := by
  cases m with
  | attempt data wait skip => exact absurd rfl (ha data wait skip)
  | _ => simp [answer, deliver]

/-- Counting an attempt does not overflow within the budget (R152 s4). -/
theorem countAttempt_k_toNat (r : WriteResp) {s : State} (hk : s.k.toNat < pollBudget) :
    (countAttempt r s).k.toNat = s.k.toNat + 1 := by
  have hadd : (s.k + 1).toNat = (s.k.toNat + 1) % 256 := BitVec.toNat_add s.k 1
  simp only [pollBudget] at hk
  rw [countAttempt_k, hadd]
  omega

/-- After a counted attempt within the budget, wherever the polling loop goes, it is sound there (R156 to R158). -/
theorem afterAttempt_sound (op : Op) {s : State} (h1 : 1 ≤ s.k.toNat) (hk : s.k.toNat ≤ pollBudget)
    (ht : s.params.collFlag ≠ .timeout → s.acc.getLsbD 1 = false) :
    ∃ j, (afterAttempt 6 5 10 op s).seq = .run op j ∧ pollSoundAt j (afterAttempt 6 5 10 op s) ∧
      timeoutFlagSound (afterAttempt 6 5 10 op s) := by
  have htimeout : (s.acc ||| errBit .timeout).getLsbD 1 = true := by simp [errBit]
  rcases afterAttempt_cases 6 5 10 op s with ⟨hr, e⟩ | ⟨hr, hlt, e⟩ | ⟨hr, hge, hp, e⟩ | ⟨hr, hge, hp, e⟩ <;> rw [e]
  case inl =>
    exact ⟨6, rfl, ⟨h1, hk, fun hf => absurd (hr.symm.trans hf) nofun⟩, fun hc => by simpa [hr] using ht hc⟩
  case inr.inl => exact ⟨5, rfl, ⟨h1, hlt, hr⟩, fun hc => by simpa [hlt.ne] using ht hc⟩
  case inr.inr.inl =>
    have heq := le_antisymm hk hge
    exact ⟨6, rfl, ⟨h1, hk, fun _ => ⟨heq, hp, htimeout⟩⟩, fun _ => htimeout.trans (by simp [hr, heq])⟩
  case inr.inr.inr =>
    have heq := le_antisymm hk hge
    exact ⟨10, rfl, ⟨heq, hr, hp, htimeout⟩, fun _ => htimeout.trans (by simp [hr, heq])⟩

/-! # The parts of the invariant -/

theorem sequencerSound_run {op : Op} {n : Nat} {s : State} (hs : s.seq = .run op n) :
    sequencerSound s ↔ n < (listingOf op).length ∧
      (s.req = none ∨ ∃ m, (listingOf op)[n]? = some m ∧ s.req = m.call s) := by
  simp [sequencerSound, hs]

theorem flagsSound_run {op : Op} {n : Nat} {s : State} (hs : s.seq = .run op n) :
    flagsSound s ↔ s.lastOp = opcodeOf (instrOf op s.opnd) ∧ flagsWithin s.acc (runFlags s.params op) := by
  simp [flagsSound, hs]

theorem pollSound_run {op : Op} {n : Nat} {s : State} (hs : s.seq = .run op n) :
    pollSound s ↔ (op.polls = true → pollSoundAt n s ∧ timeoutFlagSound s) := by
  simp [pollSound, hs]

theorem decodeFields_opcodeOf (i : Instr) (b : Byte) : decodeFields (opcodeOf i) b = .legal (instrOf (opOf i) b) := by
  cases i <;> rfl

/-- In IDLE after an operation, `flagsSound` speaks of the flags that operation publishes. -/
theorem flagsSound_idle {op : Op} {b : Byte} {s : State} (hs : s.seq = .idle)
    (hl : s.lastOp = opcodeOf (instrOf op b)) :
    flagsSound s ↔ flagsWithin s.err (publishedFlags s.params op) ∧
      (s.params.collFlag ≠ .timeout → s.err.getLsbD 1 = true → s.attempts.toNat = pollBudget) := by
  simp [flagsSound, hs, hl, decodeFields_opcodeOf]

end Sys2Proof.Machine

/-! # What a step of a listing keeps -/

namespace Sys2Proof.Machine

/-- The published results of `t` are those of `s`: every host register but STATUS and LAST_OP, and the valid bits. -/
structure SameResults (s t : State) : Prop where
  rhV : t.rhV = s.rhV
  tV : t.tV = s.tV
  uregV : t.uregV = s.uregV
  snV : t.snV = s.snV
  err : t.err = s.err
  rhRaw : t.rhRaw = s.rhRaw
  rhVal : t.rhVal = s.rhVal
  tRaw : t.tRaw = s.tRaw
  tVal : t.tVal = s.tVal
  ureg : t.ureg = s.ureg
  sn : t.sn = s.sn
  attempts : t.attempts = s.attempts

@[simp] theorem answer_req (op : Op) (m : Micro) (c : Call) (s : State) : (answer op m c s).req = none := by
  simp [answer_frame]

@[simp] theorem answer_params (op : Op) (m : Micro) (c : Call) (s : State) : (answer op m c s).params = s.params := by
  simp [answer_frame]

@[simp] theorem answer_lastOp (op : Op) (m : Micro) (c : Call) (s : State) : (answer op m c s).lastOp = s.lastOp := by
  simp [answer_frame]

@[simp] theorem answer_opnd (op : Op) (m : Micro) (c : Call) (s : State) : (answer op m c s).opnd = s.opnd := by
  simp [answer_frame]

/-- Answering a call publishes nothing. -/
theorem answer_sameResults (op : Op) (m : Micro) (c : Call) (s : State) : SameResults s (answer op m c s) := by
  constructor <;> simp [answer_frame]

/-- The results' part of the invariant speaks of published results alone. -/
theorem resultsSound_of_sameResults {s t : State} (h : SameResults s t) (hs : resultsSound s) : resultsSound t := by
  obtain ⟨h1, h2, h3, h4, _, h6, h7, h8, h9, h10, h11, h12⟩ := h
  simpa only [resultsSound, h1, h2, h3, h4, h6, h7, h8, h9, h10, h11, h12] using hs

/-- Validation publishes nothing. -/
theorem checkCrc_sameResults (wire : List Byte) (s : State) : SameResults s (checkCrc wire s) := by
  constructor <;> simp

theorem checkCrc_resultsSound (wire : List Byte) {s : State} (hs : resultsSound s) :
    resultsSound (checkCrc wire s) :=
  resultsSound_of_sameResults (checkCrc_sameResults wire s) hs

/-- A measurement writes a raw register, its conversion and its valid bit together (R163, R164). -/
theorem writeMeasurement_resultsSound (kind : Kind) {s : State} (hs : resultsSound s) :
    resultsSound (writeMeasurement kind s) := by
  obtain ⟨hrh, hrhVal, ht, htVal, hureg, hsn, hattempts⟩ := hs
  cases kind
  · exact ⟨nofun, fun _ => rfl, ht, htVal, hureg, hsn, hattempts⟩
  · exact ⟨hrh, hrhVal, nofun, fun _ => rfl, hureg, hsn, hattempts⟩

theorem writeAttempts_resultsSound {s : State} (hs : resultsSound s) (hk : s.k.toNat ≤ pollBudget) :
    resultsSound (writeAttempts s) := by
  obtain ⟨hrh, hrhVal, ht, htVal, hureg, hsn, -⟩ := hs
  exact ⟨hrh, hrhVal, ht, htVal, hureg, hsn, hk⟩

theorem publish_resultsSound {s : State} (hs : resultsSound s) : resultsSound (publish s) := hs

/-- A Commit publishes sound results where the ATTEMPTS it writes are within the budget (R44, R34). -/
theorem commit_resultsSound {what : Commit} {s : State} (hs : resultsSound s)
    (hk : what.writesAttempts = true → s.k.toNat ≤ pollBudget) : resultsSound (commit what s) := by
  cases what with
  | nothing => exact hs
  | ureg =>
    obtain ⟨hrh, hrhVal, ht, htVal, -, hsn, hattempts⟩ := checkCrc_resultsSound [s.d0] hs
    exact ⟨hrh, hrhVal, ht, htVal, nofun, hsn, hattempts⟩
  | polled kind =>
    exact publish_resultsSound (writeAttempts_resultsSound
      (writeMeasurement_resultsSound kind (checkCrc_resultsSound _ hs)) (by simpa using hk rfl))
  | attemptsOnly => exact publish_resultsSound (writeAttempts_resultsSound hs (hk rfl))
  | held kind => exact writeMeasurement_resultsSound kind (checkCrc_resultsSound _ hs)
  | serial =>
    obtain ⟨hrh, hrhVal, ht, htVal, hureg, -, hattempts⟩ := hs
    exact ⟨hrh, hrhVal, ht, htVal, hureg, nofun, hattempts⟩

/-! # The invariant -/

/-- A running operation's micro-step index is one of its listing (R38). -/
theorem State.Inv.lt_length {op : Op} {n : Nat} {s : State} (h : s.Inv) (hs : s.seq = .run op n) :
    n < (listingOf op).length :=
  ((sequencerSound_run hs).1 h.sequencer).1

/-- A pending call is the call of the current micro-step (R104). -/
theorem State.Inv.pending {op : Op} {n : Nat} {m : Micro} {c : Call} {s : State} (h : s.Inv)
    (hs : s.seq = .run op n) (hm : (listingOf op)[n]? = some m) (hc : s.req = some c) : m.call s = some c := by
  obtain ⟨_, hr | ⟨m', hm', hr⟩⟩ := (sequencerSound_run hs).1 h.sequencer
  · rw [hr] at hc; cases hc
  · rw [hm] at hm'; cases hm'; rw [← hr, hc]

/-- In IDLE nothing is pending (R101). -/
theorem State.Inv.idle_req {s : State} (h : s.Inv) (hs : s.seq = .idle) : s.req = none := by
  simpa [sequencerSound, hs] using h.sequencer

/-- While an operation runs, LAST_OP is its opcode. -/
theorem State.Inv.lastOp_run {op : Op} {n : Nat} {s : State} (h : s.Inv) (hs : s.seq = .run op n) :
    s.lastOp = opcodeOf (instrOf op s.opnd) :=
  ((flagsSound_run hs).1 h.flags).1

/-- While an operation runs, acc holds only flags it can raise. -/
theorem State.Inv.acc_within {op : Op} {n : Nat} {s : State} (h : s.Inv) (hs : s.seq = .run op n) :
    flagsWithin s.acc (runFlags s.params op) :=
  ((flagsSound_run hs).1 h.flags).2

/-- While a polled measurement runs, its loop is sound. -/
theorem State.Inv.poll_run {op : Op} {n : Nat} {s : State} (h : s.Inv) (hs : s.seq = .run op n)
    (hp : op.polls = true) : pollSoundAt n s ∧ timeoutFlagSound s :=
  (pollSound_run hs).1 h.poll hp

/-- What the agents around the controller do is no part of the invariant. -/
theorem sameController_inv {s u : State} (h : s.Inv) (hu : SameController s u) : u.Inv := by
  obtain ⟨_, _, _, _, _, rfl⟩ := hu
  exact ⟨h.paramsWf, h.noUnitFlag, h.sequencer, h.flags, h.poll, h.results⟩

theorem writeStatus_inv {s : State} (h : s.Inv) (v : Word) : (s.writeStatus v).Inv :=
  ⟨h.paramsWf, h.noUnitFlag, h.sequencer, h.flags, h.poll, h.results⟩

theorem setIll_inv {s : State} (h : s.Inv) : s.setIll.Inv :=
  ⟨h.paramsWf, h.noUnitFlag, h.sequencer, h.flags, h.poll, h.results⟩

theorem setOvr_inv {s : State} (h : s.Inv) : s.setOvr.Inv :=
  ⟨h.paramsWf, h.noUnitFlag, h.sequencer, h.flags, h.poll, h.results⟩

/-- Controller reset establishes the invariant, whatever the state it abandons (R220, R221). -/
theorem controllerReset_inv {s : State} (h : s.params.wf = true) : (controllerReset s).Inv where
  paramsWf := h
  noUnitFlag := by simp [State.reset]
  sequencer := rfl
  flags := rfl
  poll := trivial
  results := ⟨fun _ => ⟨rfl, rfl⟩, nofun, fun _ => ⟨rfl, rfl⟩, nofun, fun _ => rfl, fun _ => rfl, Nat.zero_le _⟩

/-- Acceptance keeps the invariant (R100). -/
theorem accept_inv {s : State} (h : s.Inv) (hs : s.seq = .idle) (i : Instr) : (accept i s).Inv where
  paramsWf := h.paramsWf
  noUnitFlag := h.noUnitFlag
  sequencer := ⟨listingOf_length_pos _, .inl (h.idle_req hs)⟩
  flags := ⟨by simp, flagsWithin_zero _⟩
  poll := fun _ => ⟨⟨rfl, rfl⟩, fun _ => by simp [pollBudget]⟩
  results := h.results

section Running

variable {op : Op} {n : Nat} {m : Micro} {s : State} (h : s.Inv) (hs : s.seq = .run op n)

include h hs

/-- Issuing the current micro-step's call keeps the invariant (R104). -/
theorem issue_inv (hm : (listingOf op)[n]? = some m) : (issue (m.call s) s).Inv where
  paramsWf := h.paramsWf
  noUnitFlag := h.noUnitFlag
  sequencer := (sequencerSound_run (s := issue (m.call s) s) hs).2 ⟨h.lt_length hs, .inr ⟨m, hm, rfl⟩⟩
  flags := h.flags
  poll := h.poll
  results := h.results

/-- At the attempt of the polling loop, the budget is not spent and no timeout is recorded (R156, R157). -/
theorem attempt_state (hp : op.polls = true) (hn : n = 4) :
    s.k.toNat < pollBudget ∧ (s.params.collFlag ≠ .timeout → s.acc.getLsbD 1 = false) := by
  subst hn
  obtain ⟨hat, htimeout⟩ := h.poll_run hs hp
  obtain ⟨hk, hready⟩ : s.k.toNat < pollBudget ∧ s.ready = false := hat
  refine ⟨hk, fun hc => ?_⟩
  rw [htimeout hc, hready, decide_eq_false (by omega)]
  rfl

/-- An answered call leads to a micro-step at which the polling loop is sound again (R156 to R158). -/
theorem answer_pollSound (hm : (listingOf op)[n]? = some m) (hnc : ∀ what, m ≠ .commit what) (c : Call) :
    pollSound (answer op m c s) := by
  by_cases ha : ∃ data wait skip, m = .attempt data wait skip
  · obtain ⟨data, wait, skip, rfl⟩ := ha
    obtain ⟨hp, hn, rfl, rfl, rfl⟩ := attempt_of_listing hm
    obtain ⟨hk, ht⟩ := attempt_state h hs hp hn
    have hk' := countAttempt_k_toNat s.busIn.resp (s := record c s) hk
    obtain ⟨j, hseq, hsound⟩ := afterAttempt_sound op (s := countAttempt s.busIn.resp (record c s))
      (by omega) (by rw [hk']; exact hk) ht
    exact (pollSound_run hseq).2 fun _ => hsound
  · have hna : ∀ data wait skip, m ≠ .attempt data wait skip := fun d w k e => ha ⟨d, w, k, e⟩
    obtain ⟨j, hj, hseq⟩ := answer_successor (op := op) c s hnc
    refine (pollSound_run hseq).2 fun hp => ?_
    obtain ⟨hat, htimeout⟩ := h.poll_run hs hp
    obtain ⟨hk, hready, f, hf, hacc⟩ := answer_working (op := op) c s hna
    have hparams : (answer op m c s).params = s.params := answer_params op m c s
    constructor
    · refine pollSoundAt_mono hk hready hparams (fun hbit => ?_)
        (pollSoundAt_edge (successor_mem_pollEdges hp hm hna hj) hat)
      rw [hacc, BitVec.getLsbD_or, hbit, Bool.true_or]
    · intro hc
      rw [hparams] at hc
      have hf1 : f.getLsbD 1 = false := by
        rcases hf with rfl | rfl
        · simp
        · exact respFlags_timeout hc _
      rw [hacc, hk, hready, BitVec.getLsbD_or, hf1, Bool.or_false]
      exact htimeout hc

/-- An answered call adds to acc only flags its operation can raise (R110, R157). -/
theorem answer_acc_within (hm : (listingOf op)[n]? = some m) (c : Call) :
    flagsWithin (answer op m c s).acc (runFlags s.params op) := by
  have hacc := h.acc_within hs
  by_cases ha : ∃ data wait skip, m = .attempt data wait skip
  · obtain ⟨data, wait, skip, rfl⟩ := ha
    obtain ⟨hp, -⟩ := attempt_of_listing hm
    have htimeout : flagsWithin (errBit .timeout) (runFlags s.params op) := by
      simp only [runFlags, hp, if_true]
      exact flagsWithin_right _ _
    have hor := flagsWithin_or hacc htimeout
    rcases afterAttempt_cases data wait skip op (countAttempt s.busIn.resp (record c s)) with
      ⟨_, e⟩ | ⟨_, _, e⟩ | ⟨_, _, _, e⟩ | ⟨_, _, _, e⟩ <;> simpa [answer, deliver, e]
  · obtain ⟨-, -, f, hf, e⟩ := answer_working (op := op) c s fun d w k e => ha ⟨d, w, k, e⟩
    rw [e]
    refine flagsWithin_or hacc ?_
    rcases hf with rfl | rfl
    · exact flagsWithin_zero _
    · exact respFlags_within _ _ _

/-- Answering the pending call keeps the invariant (R104, R108, R112). -/
theorem answer_inv {c : Call} (hm : (listingOf op)[n]? = some m) (hc : s.req = some c) : (answer op m c s).Inv := by
  have hnc : ∀ what, m ≠ .commit what := by
    rintro what rfl
    cases h.pending hs hm hc
  obtain ⟨j, hj, hseq⟩ := answer_successor (op := op) c s hnc
  have hres := answer_sameResults op m c s
  constructor
  case paramsWf => rw [answer_params]; exact h.paramsWf
  case noUnitFlag => rw [hres.err]; exact h.noUnitFlag
  case sequencer =>
    exact (sequencerSound_run hseq).2
      ⟨successor_lt_length op m (List.mem_of_getElem? hm) j hj, .inl (answer_req op m c s)⟩
  case flags =>
    refine (flagsSound_run hseq).2 ⟨?_, ?_⟩
    · rw [answer_lastOp, answer_opnd]
      exact h.lastOp_run hs
    · rw [answer_params]
      exact answer_acc_within h hs hm c
  case poll => exact answer_pollSound h hs hm hnc c
  case results => exact resultsSound_of_sameResults hres h.results

/-- At a Commit of a polled measurement, ATTEMPTS will be within the budget (R34, R159). -/
theorem commit_k_le {what : Commit} (hm : (listingOf op)[n]? = some (.commit what)) (hp : op.polls = true) :
    s.k.toNat ≤ pollBudget := by
  obtain ⟨hat, -⟩ := h.poll_run hs hp
  rcases commit_of_listing op n what hm with ⟨rfl, rfl, _⟩ | ⟨rfl, rfl, _⟩ | ⟨rfl, rfl, _⟩ | ⟨rfl, rfl, _⟩ |
    ⟨rfl, rfl, _⟩ | ⟨rfl, rfl, _⟩ | ⟨rfl, rfl, _⟩ | ⟨rfl, rfl, _⟩ | ⟨rfl, rfl, _⟩ | ⟨rfl, rfl, _⟩ <;>
    simp_all [pollSoundAt, Op.polls]

/-- ERR_TIMEOUT is published only with ATTEMPTS at the budget (R201). -/
theorem commit_timeout {what : Commit} (hm : (listingOf op)[n]? = some (.commit what))
    (hc : s.params.collFlag ≠ .timeout) (ht : (commit what s).err.getLsbD 1 = true) :
    (commit what s).attempts.toNat = pollBudget := by
  obtain ⟨hkind, -, -⟩ := commit_of_listing_kind hm
  rw [commit_err_timeout] at ht
  cases hp : op.polls with
  | false =>
    rw [flagsWithin_false (h.acc_within hs) (runFlags_timeout hc hp)] at ht
    cases ht
  | true =>
    rw [(h.poll_run hs hp).2 hc] at ht
    simp_all [commit_attempts]

/-- A Commit keeps the invariant (R113). -/
theorem commit_inv {what : Commit} (hm : (listingOf op)[n]? = some (.commit what)) (hr : s.req = none) :
    (commit what s).Inv := by
  obtain ⟨hkind, -, -⟩ := commit_of_listing_kind hm
  have hparams : (commit what s).params = s.params := by simp [commit_frame]
  have hwithin := commit_err_within hm (h.acc_within hs)
  constructor
  case paramsWf => rw [hparams]; exact h.paramsWf
  case noUnitFlag => exact flagsWithin_false hwithin (publishedFlags_unit h.paramsWf op)
  case sequencer => simp [sequencerSound, commit_frame, hr]
  case flags =>
    refine (flagsSound_idle (by simp [commit_frame]) (b := s.opnd) (op := op) ?_).2 ⟨?_, ?_⟩
    · simp [commit_frame, h.lastOp_run hs]
    · rwa [hparams]
    · rw [hparams]; exact commit_timeout h hs hm
  case poll => simp [pollSound, commit_frame]
  case results =>
    exact commit_resultsSound h.results fun hw => commit_k_le h hs hm (hkind ▸ hw)

/-- Every step of a running listing keeps the invariant. -/
theorem microStep_inv {t : State} (ht : microStep op (listingOf op) n s = .next t) : t.Inv := by
  obtain ⟨m, hm, ⟨what, rfl, hr, rfl⟩ | ⟨-, -, rfl⟩ | ⟨c, hc, rfl⟩⟩ := microStep_cases ht
  · exact commit_inv h hs hm hr
  · exact issue_inv h hs hm
  · exact answer_inv h hs hm hc

end Running

/-- A frame of the controller: the sequencer state is the controller's. -/
theorem SameController.seq {s u : State} (h : SameController s u) : u.seq = s.seq := by
  obtain ⟨_, _, _, _, _, rfl⟩ := h
  rfl

/-- Every step keeps the invariant. -/
theorem stepCase_inv {s t : State} (h : s.Inv) (hc : StepCase s t) : t.Inv := by
  cases hc with
  | reset m _ => exact controllerReset_inv (s := { s with moves := m }) h.paramsWf
  | same u hu => exact sameController_inv h hu
  | status u v hu => exact writeStatus_inv (sameController_inv h hu) v
  | ill u w b hu _ _ _ => exact setIll_inv (sameController_inv h hu)
  | ovr u hu _ => exact setOvr_inv (sameController_inv h hu)
  | accept u w i hu hi _ _ => exact accept_inv (sameController_inv h hu) (hu.seq.trans hi) i
  | run u t op n hu hs ht => exact microStep_inv (sameController_inv h hu) (hu.seq.trans hs) ht

/-- Settles O51: each case of `StepCase` keeps each part of the invariant. -/
theorem everyStepKeepsTheInvariant : Obligations.EveryStepKeepsTheInvariant := by
  unfold Obligations.EveryStepKeepsTheInvariant
  intro s t h hstep
  exact stepCase_inv h (step_cases hstep)

/-- Settles O50: the reset state is the controller reset of itself. -/
theorem invariantHoldsAtReset : Obligations.InvariantHoldsAtReset :=
  controllerReset_inv (s := State.reset) rfl

end Sys2Proof.Machine

/-! # The host registers -/

namespace Sys2Proof.Machine

/-- The value of two words side by side. -/
theorem append_toNat {m n : Nat} (x : BitVec m) (y : BitVec n) : (x ++ y).toNat = x.toNat * 2 ^ n + y.toNat := by
  rw [BitVec.toNat_append, ← Nat.shiftLeft_add_eq_or_of_lt y.isLt, Nat.shiftLeft_eq]

/-- SN_HI:SN_LO is the 64-bit number whose byte `i` is SN[i] (R33). -/
theorem SnBytes.hi_lo_toNat (v : SnBytes) :
    v.hi.toNat * 2 ^ 32 + v.lo.toNat =
      v.b0.toNat + v.b1.toNat * 2 ^ 8 + v.b2.toNat * 2 ^ 16 + v.b3.toNat * 2 ^ 24 +
      v.b4.toNat * 2 ^ 32 + v.b5.toNat * 2 ^ 40 + v.b6.toNat * 2 ^ 48 + v.b7.toNat * 2 ^ 56 := by
  simp only [SnBytes.hi, SnBytes.lo, append_toNat]
  omega

/-- Settles O15: each register's read is its field, and the serial-number pair is `SnBytes.hi_lo_toNat`. -/
theorem hostRegisterMap : Obligations.HostRegisterMap := by
  unfold Obligations.HostRegisterMap
  intro s
  simp only [BitVec.ofNat_toNat]
  exact ⟨rfl, rfl, rfl, rfl, rfl, rfl, rfl, rfl, s.sn.hi_lo_toNat, rfl, rfl, rfl, rfl, rfl⟩

/-- A bit put in its place is 0 everywhere else. -/
theorem getLsbD_bitAt {n : Nat} (hn : n < 32) (b : Bool) (j : Nat) :
    (bitAt n b).getLsbD j = (b && decide (j = n)) := by
  simp only [bitAt, BitVec.getLsbD_shiftLeft, BitVec.getLsbD_setWidth, BitVec.getLsbD_ofBool]
  rcases lt_trichotomy j n with hlt | rfl | hgt
  · simp [hlt, hlt.ne]
  · simp [hn]
  · simp [Nat.sub_ne_zero_of_lt hgt, hgt.ne']

theorem busy_iff {s : State} : s.busy = true ↔ s.seq ≠ .idle := by
  rw [ne_eq, ← busy_false, Bool.not_eq_false]

/-- Each bit of STATUS (R24). -/
theorem getLsbD_status (s : State) (j : Nat) :
    s.status.getLsbD j =
      (s.busy && decide (j = 0) || s.ill && decide (j = 1) || s.ovr && decide (j = 2) || s.rhV && decide (j = 4) ||
        s.tV && decide (j = 5) || s.uregV && decide (j = 6) || s.snV && decide (j = 7)) := by
  simp [State.status, getLsbD_bitAt]

/-- Settles O16: STATUS read bit by bit. -/
theorem statusRegisterBits : Obligations.StatusRegisterBits := by
  unfold Obligations.StatusRegisterBits
  intro s
  have hread : s.hostRead 1 = s.status := rfl
  simp only [hread, getLsbD_status, ← busy_iff]
  refine ⟨by simp, by simp, by simp, by simp, by simp, by simp, by simp, by simp, fun j hj => ?_⟩
  have hne : ∀ n < 8, decide (j = n) = false := fun n hn => decide_eq_false (by omega)
  simp [hne]

/-- A register counts as unwritten exactly where its group's valid bit is 0 (R44). -/
theorem written_eq_false (s : State) (a : HAddr) :
    s.written a = false ↔
      (s.rhV = false ∧ (a = 4 ∨ a = 5)) ∨ (s.tV = false ∧ (a = 6 ∨ a = 7)) ∨ (s.uregV = false ∧ a = 8) ∨
        (s.snV = false ∧ (a = 9 ∨ a = 10)) := by
  unfold State.written
  split <;> simp_all

/-- Settles O18: a read has no value exactly where its register counts as unwritten. -/
theorem unwrittenResultReadsAreMarked : Obligations.UnwrittenResultReadsAreMarked := by
  unfold Obligations.UnwrittenResultReadsAreMarked
  intro s a
  rw [← written_eq_false]
  cases hw : s.written a <;> simp [State.readValue, hw]

/-- Settles O48: the reset state is a literal, and each register of its map reads 0. -/
theorem resetLeavesEveryRegisterZero : Obligations.ResetLeavesEveryRegisterZero := by
  unfold Obligations.ResetLeavesEveryRegisterZero
  exact ⟨rfl, by decide, rfl, rfl, rfl, rfl, rfl, rfl, rfl, rfl, rfl, rfl⟩

/-! # Host writes -/

/-- Where the host's next line is a write, the step is that write. -/
theorem nextAction_hw {s : State} {a : HAddr} {v : Word} {rest : List HostLine} (hn : s.hostMovesNext = true)
    (hp : s.prog = .hw a v :: rest) :
    nextAction s = hostWrite a v { s with prog := rest, moves := s.moves.tail } := by
  rw [nextAction_host hn]
  simp [hostMove, hp]

/-- Clearing a bit on request, as the STATUS write computes it and as R25 says it. -/
theorem and_not_eq_ite (b clear : Bool) : (b && !clear) = if clear then false else b := by
  cases clear <;> simp

/-- Settles O19: the line is a STATUS write, and `writeStatus` is the update R25 states. -/
theorem statusWriteClearsIllAndOvr : Obligations.StatusWriteClearsIllAndOvr := by
  unfold Obligations.StatusWriteClearsIllAndOvr
  intro s v rest hn hp
  have hact : nextAction s = .done (State.writeStatus v { s with prog := rest, moves := s.moves.tail }) :=
    nextAction_hw hn hp
  rw [step_done hact, ← and_not_eq_ite, ← and_not_eq_ite]
  rfl

/-- Settles O20: a host write that is neither to CMD nor to STATUS is done at once. -/
theorem otherWritesAreIgnored : Obligations.OtherWritesAreIgnored := by
  unfold Obligations.OtherWritesAreIgnored
  intro s a v rest hn hp h0 h1
  apply step_done
  rw [nextAction_hw hn hp]
  exact (if_neg h0).trans (if_neg h1)

/-! # The converter -/

/-- The mask drops the low 2 bits of the raw measurand (R162). -/
theorem maskStatus_eq (raw : Raw) : maskStatus raw = (raw >>> 2) <<< 2 := by
  apply BitVec.eq_of_getLsbD_eq
  intro j hj
  simp [maskStatus, statusMask]
  interval_cases j <;> simp

theorem maskStatus_toNat (raw : Raw) : (maskStatus raw).toNat = 4 * (raw.toNat / 4) := by
  have := raw.isLt
  simp [maskStatus_eq, Nat.shiftRight_eq_div_pow, Nat.shiftLeft_eq]
  omega

theorem maskStatus_mod_four (raw : Raw) : (maskStatus raw).toNat % 4 = 0 := by
  rw [maskStatus_toNat]
  omega

theorem maskStatus_le (raw : Raw) : (maskStatus raw).toNat ≤ 65532 := by
  have := raw.isLt
  rw [maskStatus_toNat]
  omega

/-- The humidity word holds its numerator without overflow (R163). -/
theorem convert_rh_toInt {v : Raw} (hv : v.toNat ≤ 65532) :
    (convert .rh v).toInt = 125 * (v.toNat : Int) - 393216 :=
  BitVec.toInt_ofInt_eq_self (by omega) (by simp only [humidityNumerator]; omega)
    (by simp only [humidityNumerator]; omega)

/-- The temperature word holds its numerator without overflow (R164). -/
theorem convert_t_toInt {v : Raw} (hv : v.toNat ≤ 65532) :
    (convert .t v).toInt = 17572 * (v.toNat : Int) - 307036160 :=
  BitVec.toInt_ofInt_eq_self (by omega) (by simp only [temperatureNumerator]; omega)
    (by simp only [temperatureNumerator]; omega)

/-- Settles O45: both numerators of a masked measurand fit their word. -/
theorem conversionIsExactAndInRange : Obligations.ConversionIsExactAndInRange := by
  unfold Obligations.ConversionIsExactAndInRange
  intro raw
  have hle := maskStatus_le raw
  rw [convert_rh_toInt hle, convert_t_toInt hle]
  exact ⟨maskStatus_mod_four raw, hle, rfl, rfl, by omega, by omega, by omega, by omega⟩

end Sys2Proof.Machine

/-! # What a command's step leaves unchanged -/

namespace Sys2Proof.Machine

/-- The model's own fields but the trace, which no step of a command changes. -/
structure SameAgents (s t : State) : Prop where
  params : t.params = s.params
  moves : t.moves = s.moves
  agents : t.agents = s.agents
  prog : t.prog = s.prog
  busIn : t.busIn = s.busIn
  draws : t.draws = s.draws
  reads : t.reads = s.reads

theorem SameAgents.fields {s t : State} (h : SameAgents s t) :
    t.params = s.params ∧ t.moves = s.moves ∧ t.agents = s.agents ∧ t.prog = s.prog ∧ t.busIn = s.busIn ∧
    t.draws = s.draws ∧ t.reads = s.reads :=
  ⟨h.params, h.moves, h.agents, h.prog, h.busIn, h.draws, h.reads⟩

theorem issue_sameResults (call : Option Call) (s : State) : SameResults s (issue call s) := by
  constructor <;> rfl

theorem accept_sameResults (i : Instr) (s : State) : SameResults s (accept i s) := by
  constructor <;> rfl

theorem writeStatus_sameResults (v : Word) (s : State) : SameResults s (s.writeStatus v) := by
  constructor <;> rfl

theorem setIll_sameResults (s : State) : SameResults s s.setIll := by
  constructor <;> rfl

theorem setOvr_sameResults (s : State) : SameResults s s.setOvr := by
  constructor <;> rfl

theorem SameResults.trans {s t u : State} (h : SameResults s t) (g : SameResults t u) : SameResults s u := by
  constructor <;> simp [g.rhV, g.tV, g.uregV, g.snV, g.err, g.rhRaw, g.rhVal, g.tRaw, g.tVal, g.ureg, g.sn, g.attempts,
    h.rhV, h.tV, h.uregV, h.snV, h.err, h.rhRaw, h.rhVal, h.tRaw, h.tVal, h.ureg, h.sn, h.attempts]

/-- A step of a listing publishes nothing, or it is the Commit of the micro-step it is at (R67, R113). -/
theorem microStep_publishes {op : Op} {l : Listing} {n : Nat} {s t : State} (h : microStep op l n s = .next t) :
    SameResults s t ∨ ∃ what, l[n]? = some (.commit what) ∧ t = commit what s := by
  obtain ⟨m, hm, ⟨what, rfl, -, rfl⟩ | ⟨-, -, rfl⟩ | ⟨c, -, rfl⟩⟩ := microStep_cases h
  · exact .inr ⟨what, hm, rfl⟩
  · exact .inl (issue_sameResults _ s)
  · exact .inl (answer_sameResults op m c s)

/-- A step of a listing leaves ILL, OVR and the agents alone. -/
theorem microStep_frame {op : Op} {l : Listing} {n : Nat} {s t : State} (h : microStep op l n s = .next t) :
    t.ill = s.ill ∧ t.ovr = s.ovr ∧ SameAgents s t := by
  obtain ⟨m, -, ⟨what, -, -, rfl⟩ | ⟨-, -, rfl⟩ | ⟨c, -, rfl⟩⟩ := microStep_cases h
  · exact ⟨by simp [commit_frame], by simp [commit_frame], by constructor <;> simp [commit_frame]⟩
  · exact ⟨rfl, rfl, by constructor <;> rfl⟩
  · exact ⟨by simp [answer_frame], by simp [answer_frame], by constructor <;> simp [answer_frame]⟩

/-- A host register other than STATUS and LAST_OP shows a published result. -/
theorem hostRead_of_sameResults {s t : State} (h : SameResults s t) {a : HAddr} (h1 : a ≠ 1) (h3 : a ≠ 3) :
    t.hostRead a = s.hostRead a := by
  obtain ⟨-, -, -, -, herr, hrhRaw, hrhVal, htRaw, htVal, hureg, hsn, hattempts⟩ := h
  unfold State.hostRead
  split <;> simp_all

/-- A Commit leaves every host register it does not assign, STATUS and ERR apart. -/
theorem commit_hostRead {what : Commit} {a : HAddr} (s : State) (ha : a ∉ what.writes) (h1 : a ≠ 1) (h2 : a ≠ 2) :
    (commit what s).hostRead a = s.hostRead a := by
  rcases what with _ | _ | (_ | _) | _ | (_ | _) | _ <;>
    simp only [Commit.writes, List.mem_cons, List.not_mem_nil, or_false, not_or] at ha <;>
    unfold State.hostRead <;> split <;>
    simp_all [commit, Commit.assign, haddrUreg, haddrRhRaw, haddrRhVal, haddrTRaw, haddrTVal, haddrAttempts,
      haddrSnLo, haddrSnHi]

/-- A Commit leaves the valid bits of the groups it does not assign. -/
theorem commit_validBits (what : Commit) (s : State) :
    (haddrRhRaw ∉ what.writes → (commit what s).rhV = s.rhV) ∧
    (haddrTRaw ∉ what.writes → (commit what s).tV = s.tV) ∧
    (haddrUreg ∉ what.writes → (commit what s).uregV = s.uregV) ∧
    (haddrSnLo ∉ what.writes → (commit what s).snV = s.snV) := by
  rcases what with _ | _ | (_ | _) | _ | (_ | _) | _ <;> simp [commit, Commit.assign, Commit.writes]

/-- No Commit clears a valid bit (R24). -/
theorem commit_validBits_mono (what : Commit) (s : State) :
    (s.rhV = true → (commit what s).rhV = true) ∧ (s.tV = true → (commit what s).tV = true) ∧
    (s.uregV = true → (commit what s).uregV = true) ∧ (s.snV = true → (commit what s).snV = true) := by
  rcases what with _ | _ | (_ | _) | _ | (_ | _) | _ <;> simp +contextual [commit, Commit.assign]

/-- What a command's step can do to the results: it publishes nothing, or it is a Commit of the command's listing. -/
theorem exec_publishes {i : Instr} {s t : State} (h : exec i s = .next t) :
    SameResults s t ∨
      ∃ (n : Nat) (what : Commit), (listingOf (opOf i))[n]? = some (.commit what) ∧ t = commit what s := by
  rw [exec_eq] at h
  rcases command_cases h with ⟨-, rfl⟩ | ⟨_, _, -, -, rfl⟩ | ⟨n, -, hm⟩
  · exact .inl (accept_sameResults i s)
  · exact .inl (setOvr_sameResults s)
  · rcases microStep_publishes hm with hr | ⟨what, hw, e⟩
    · exact .inl hr
    · exact .inr ⟨n, what, hw, e⟩

/-- A command's step leaves ILL and the agents alone. -/
theorem exec_frame {i : Instr} {s t : State} (h : exec i s = .next t) : t.ill = s.ill ∧ SameAgents s t := by
  rw [exec_eq] at h
  rcases command_cases h with ⟨-, rfl⟩ | ⟨_, _, -, -, rfl⟩ | ⟨n, -, hm⟩
  · exact ⟨rfl, by constructor <;> rfl⟩
  · exact ⟨rfl, by constructor <;> rfl⟩
  · obtain ⟨hill, -, hagents⟩ := microStep_frame hm
    exact ⟨hill, hagents⟩

/-- Settles O55: a step that publishes nothing changes no result, and a Commit assigns only outputs of its operation. -/
theorem commandsChangeOnlyTheirOutputs : Obligations.CommandsChangeOnlyTheirOutputs := by
  unfold Obligations.CommandsChangeOnlyTheirOutputs
  intro i s t h
  obtain ⟨hill, hagents⟩ := exec_frame h
  have hown := hagents.fields
  rcases exec_publishes h with hr | ⟨n, what, hw, rfl⟩
  · exact ⟨fun a h1 _ h3 _ => hostRead_of_sameResults hr h1 h3, hill, fun _ => hr.rhV, fun _ => hr.tV,
      fun _ => hr.uregV, fun _ => hr.snV, hown⟩
  · obtain ⟨-, -, hsub⟩ := commit_of_listing_kind hw
    obtain ⟨hrh, ht, hureg, hsn⟩ := commit_validBits what s
    exact ⟨fun a h1 h2 _ ha => commit_hostRead s (fun hm => ha (hsub hm)) h1 h2, hill,
      fun ha => hrh fun hm => ha (hsub hm), fun ha => ht fun hm => ha (hsub hm),
      fun ha => hureg fun hm => ha (hsub hm), fun ha => hsn fun hm => ha (hsub hm), hown⟩

/-! # The STATUS bits over the steps -/

/-- The agents around the controller publish nothing. -/
theorem SameController.sameResults {s u : State} (h : SameController s u) : SameResults s u := by
  obtain ⟨_, _, _, _, _, rfl⟩ := h
  constructor <;> rfl

theorem SameController.ill {s u : State} (h : SameController s u) : u.ill = s.ill := by
  obtain ⟨_, _, _, _, _, rfl⟩ := h
  rfl

theorem SameController.ovr {s u : State} (h : SameController s u) : u.ovr = s.ovr := by
  obtain ⟨_, _, _, _, _, rfl⟩ := h
  rfl

/-- Settles O14: of the cases of a step, the overrun alone sets OVR and the illegal command alone sets ILL. -/
theorem ovrAndIllAreSetOnlyByCommandWrites : Obligations.OvrAndIllAreSetOnlyByCommandWrites := by
  unfold Obligations.OvrAndIllAreSetOnlyByCommandWrites
  intro s t h
  cases step_cases h with
  | reset m _ => exact ⟨nofun, nofun⟩
  | same u hu => simp +contextual [hu.ill, hu.ovr]
  | status u v hu => simp +contextual [hu.ill, hu.ovr]
  | ill u w b hu hi hw hd =>
    exact ⟨by simp +contextual [hu.ovr], fun _ _ => ⟨busy_false.2 hi, w, b, hw, hd⟩⟩
  | ovr u hu hb => exact ⟨fun _ _ => hb, by simp +contextual [hu.ill]⟩
  | accept u w i hu _ _ _ => simp +contextual [hu.ill, hu.ovr]
  | run u t op n hu _ hm =>
    obtain ⟨hill, hovr, -⟩ := microStep_frame hm
    simp +contextual [hill, hovr, hu.ill, hu.ovr]

/-- A step that is no controller reset publishes nothing, or it is a Commit of the operation that runs. -/
theorem step_publishes {s t : State} (h : step s = .next t) (hr : s.resetsNext = false) :
    SameResults s t ∨
      ∃ u op n what, SameController s u ∧ s.seq = .run op n ∧ (listingOf op)[n]? = some (.commit what) ∧
        t = commit what u := by
  cases step_cases h with
  | reset m hreset => rw [hr] at hreset; cases hreset
  | same u hu => exact .inl hu.sameResults
  | status u v hu => exact .inl (hu.sameResults.trans (writeStatus_sameResults v u))
  | ill u w b hu _ _ _ => exact .inl (hu.sameResults.trans (setIll_sameResults u))
  | ovr u hu _ => exact .inl (hu.sameResults.trans (setOvr_sameResults u))
  | accept u w i hu _ _ _ => exact .inl (hu.sameResults.trans (accept_sameResults i u))
  | run u t op n hu hs hm =>
    rcases microStep_publishes hm with hres | ⟨what, hw, e⟩
    · exact .inl (hu.sameResults.trans hres)
    · exact .inr ⟨u, op, n, what, hu, hs, hw, e⟩

theorem mem_outputs_rh {op : Op} (h : haddrRhRaw ∈ op.outputs) : op = .measRh ∨ op = .measRhHold := by
  revert h; cases op <;> decide

theorem mem_outputs_t {op : Op} (h : haddrTRaw ∈ op.outputs) : op = .measT ∨ op = .measTHold := by
  revert h; cases op <;> decide

theorem mem_outputs_ureg {op : Op} (h : haddrUreg ∈ op.outputs) : op = .uregRd := by
  revert h; cases op <;> decide

theorem mem_outputs_sn {op : Op} (h : haddrSnLo ∈ op.outputs) : op = .snRd := by
  revert h; cases op <;> decide

/-- A bit that a frame leaves unless its register is written, and that changed, had its register written. -/
theorem mem_of_bit_set {l : List HAddr} {a : HAddr} {x y : Bool} (frame : a ∉ l → y = x) (hx : x = false)
    (hy : y = true) : a ∈ l := by
  by_contra ha
  rw [frame ha, hx] at hy
  cases hy

/-- Settles O56: only a Commit changes valid bits; it clears none, and sets those of its operation's outputs. -/
theorem validBitsAreSetByCommitClearedByReset : Obligations.ValidBitsAreSetByCommitClearedByReset := by
  unfold Obligations.ValidBitsAreSetByCommitClearedByReset
  intro s t h hr
  rcases step_publishes h hr with hres | ⟨u, op, n, what, hu, hs, hw, rfl⟩
  · simp +contextual [hres.rhV, hres.tV, hres.uregV, hres.snV]
  · obtain ⟨-, -, hsub⟩ := commit_of_listing_kind hw
    have hidle : (commit what u).seq = .idle := by simp [commit_frame]
    obtain ⟨hrh, ht, hureg, hsn⟩ := commit_validBits what u
    obtain ⟨hrhMono, htMono, huregMono, hsnMono⟩ := commit_validBits_mono what u
    rw [← hu.sameResults.rhV, ← hu.sameResults.tV, ← hu.sameResults.uregV, ← hu.sameResults.snV]
    refine ⟨hrhMono, htMono, huregMono, hsnMono, fun h0 h1 => ⟨hidle, op, n, hs, ?_⟩,
      fun h0 h1 => ⟨hidle, op, n, hs, ?_⟩, fun h0 h1 => ⟨hidle, n, ?_⟩, fun h0 h1 => ⟨hidle, n, ?_⟩⟩
    · exact mem_outputs_rh (hsub (mem_of_bit_set hrh h0 h1))
    · exact mem_outputs_t (hsub (mem_of_bit_set ht h0 h1))
    · rw [hs, mem_outputs_ureg (hsub (mem_of_bit_set hureg h0 h1))]
    · rw [hs, mem_outputs_sn (hsub (mem_of_bit_set hsn h0 h1))]

/-! # Commits of a running command -/

/-- `exec` of the running operation's command is a step of its listing. -/
theorem exec_at {i : Instr} {n : Nat} {s : State} (hs : s.seq = .run (opOf i) n) :
    exec i s = microStep (opOf i) (listingOf (opOf i)) n s := by
  simp [exec_eq, command, hs]

/-- `exec` at a Commit with nothing pending is that Commit (R113). -/
theorem exec_commit {i : Instr} {n : Nat} {what : Commit} {s : State} (hs : s.seq = .run (opOf i) n)
    (hr : s.req = none) (hm : (listingOf (opOf i))[n]? = some (.commit what)) :
    exec i s = .next (commit what s) := by
  simp [exec_at hs, microStep, hm, hr]

theorem pollCommand_commit (kind : Kind) (b : Byte) :
    (listingOf (opOf (pollCommand kind b)))[11]? = some (.commit (.polled kind)) := by
  cases kind <;> rfl

theorem holdCommand_commit (kind : Kind) (b : Byte) :
    (listingOf (opOf (holdCommand kind b)))[9]? = some (.commit (.held kind)) := by
  cases kind <;> rfl

/-- Settles O34: both Commits validate and convert the same bytes, and differ in ATTEMPTS alone. -/
theorem strategiesAgreeOnTheSameBytes : Obligations.StrategiesAgreeOnTheSameBytes := by
  unfold Obligations.StrategiesAgreeOnTheSameBytes
  intro kind b s p h hp hh
  rw [exec_commit rfl rfl (pollCommand_commit kind b)] at hp
  rw [exec_commit rfl rfl (holdCommand_commit kind b)] at hh
  cases hp
  cases hh
  cases kind <;> simp [commit, Commit.assign]

theorem publishedFlags_timeout {p : Params} (h : p.collFlag ≠ .timeout) {op : Op} (hp : op.polls = false) :
    (publishedFlags p op).getLsbD 1 = false := by
  rw [publishedFlags, BitVec.getLsbD_or, runFlags_timeout h hp]
  split <;> simp [errBit]

/-- An operation that does not validate raises ERR_CRC only for a collision reported as one. -/
theorem publishedFlags_crc {p : Params} (h : p.collFlag ≠ .crc) {op : Op} (hv : op.validates = false) :
    (publishedFlags p op).getLsbD 2 = false := by
  cases hc : p.collFlag <;> cases hp : op.polls <;> simp_all [publishedFlags, runFlags, writeFlags, errBit]

/-- Settles O60: the step that ends the operation is its Commit, and publishes only flags of the operation. -/
theorem operationsPublishOnlyTheirFlags : Obligations.OperationsPublishOnlyTheirFlags := by
  unfold Obligations.OperationsPublishOnlyTheirFlags
  intro i n s t hinv hc hs hexec hidle
  rw [exec_at hs] at hexec
  obtain ⟨what, hm, -, rfl⟩ := microStep_idle hs hexec hidle
  have hwithin := commit_err_within hm (hinv.acc_within hs)
  exact ⟨flagsWithin_false hwithin (publishedFlags_unit hinv.paramsWf _),
    fun hp => flagsWithin_false hwithin (publishedFlags_timeout (by simp [hc]) hp),
    fun hv => flagsWithin_false hwithin (publishedFlags_crc (by simp [hc]) hv)⟩

/-! # No step stops -/

/-- A command answers a next state wherever the micro-step index is one of the running listing's. -/
theorem exec_next (i : Instr) {s : State} (h : ∀ op n, s.seq = .run op n → n < (listingOf op).length) :
    ∃ t, exec i s = .next t := by
  rw [exec_eq, command]
  split
  · exact ⟨_, rfl⟩
  · rename_i op n hs
    split
    · rename_i ho
      subst ho
      exact microStep_next s (h _ n hs)
    · exact ⟨_, rfl⟩

theorem runningStep_exec_seq {i : Instr} {s u : State} (h : runningStep s = .exec i u) : u.seq = s.seq := by
  rcases runningStep_cases s with ⟨_, e⟩ | ⟨_, _, _, e⟩ <;> rw [e] at h <;> cases h
  rfl

/-- The moves of the sequencer, the bus agent and the timer: the running command's step, where the agent is enabled. -/
theorem guarded_exec_seq {c : Prop} [Decidable c] {i : Instr} {v w u : State}
    (h : (if c then runningStep v else .done w) = .exec i u) : u.seq = v.seq := by
  split at h
  · exact runningStep_exec_seq h
  · cases h

theorem hostMove_exec_seq {i : Instr} {s u : State} (h : hostMove s = .exec i u) : u.seq = s.seq := by
  unfold hostMove at h
  split at h
  case h_2 a v rest _ =>
    rcases hostWrite_cases a v { s with prog := rest } with
      ⟨_, _, e⟩ | ⟨_, _, _, e⟩ | ⟨_, _, _, _, e⟩ | ⟨_, e⟩ | ⟨_, _, e⟩ <;> rw [e] at h <;> cases h
    rfl
  all_goals cases h

/-- An action that runs a command runs it in the present sequencer state. -/
theorem nextAction_exec_seq {i : Instr} {s u : State} (h : nextAction s = .exec i u) : u.seq = s.seq := by
  cases hm : s.moves with
  | nil =>
    rw [nextAction_nil hm, defaultMove] at h
    split at h
    · rw [runningStep_exec_seq h]
      split <;> rfl
    · exact hostMove_exec_seq h
  | cons m rest =>
    rw [nextAction_cons hm] at h
    cases m with
    | host => exact hostMove_exec_seq (s := { s with moves := rest }) h
    | reset => cases h
    | sequencer => exact guarded_exec_seq (v := { s with moves := rest }) h
    | timer => exact guarded_exec_seq (v := { s with moves := rest }) h
    | bus a => exact guarded_exec_seq (v := { s with moves := rest, busIn := a }) h

/-- Settles O52: the only fault is a micro-step index outside its listing, which the invariant excludes. -/
theorem noStepStops : Obligations.NoStepStops := by
  unfold Obligations.NoStepStops
  intro s hinv
  cases ha : nextAction s with
  | done t => exact ⟨t, step_done ha⟩
  | exec i u =>
    rw [step_exec ha]
    exact exec_next i fun op n hu => hinv.lt_length ((nextAction_exec_seq ha).symm.trans hu)

end Sys2Proof.Machine

/-! # The agents' moves: the issued command, the host read, the agent that is not enabled -/

namespace Sys2Proof.Machine

/-- A write to CMD of a legal word while idle runs the command (R62, R100). -/
theorem writeCmd_legal {s : State} {w : Word} {i : Instr} (hs : s.seq = .idle) (hd : decode w = .legal i) :
    writeCmd w s = .exec i s := by
  simp [writeCmd, busy_false.2 hs, hd]

/-- Settles O5: the host's move writes CMD, and in IDLE the write of a legal word runs its command. -/
theorem stepRunsTheIssuedCommand : Obligations.StepRunsTheIssuedCommand := by
  unfold Obligations.StepRunsTheIssuedCommand
  intro s w rest i hs ⟨hn, hp⟩ hd
  apply step_exec
  calc nextAction s
      = hostWrite haddrCmd w { s with prog := rest, moves := s.moves.tail } := nextAction_hw hn hp
    _ = writeCmd w { s with prog := rest, moves := s.moves.tail } := if_pos rfl
    _ = .exec i { s with prog := rest, moves := s.moves.tail } := writeCmd_legal hs hd

/-- Settles O7: each agent's move is guarded by what it waits for. -/
theorem disabledAgentsChangeNothing : Obligations.DisabledAgentsChangeNothing := by
  unfold Obligations.DisabledAgentsChangeNothing
  intro s rest
  refine ⟨fun hm hr => step_done ?_, fun a hm hb => step_done ?_, fun hm hd => step_done ?_⟩
  · exact (nextAction_cons hm).trans (if_neg hr)
  · exact (nextAction_cons hm).trans (if_neg (ne_true_of_eq_false hb))
  · exact (nextAction_cons hm).trans (if_neg (ne_true_of_eq_false hd))

/-- Settles O17: the host's move reads, and what it reads does not depend on its line or on the moves. -/
theorem hostReadChangesNothing : Obligations.HostReadChangesNothing := by
  unfold Obligations.HostReadChangesNothing
  intro s a rest hn hp
  have hact : nextAction s = .done (State.noteRead a { s with prog := rest, moves := s.moves.tail }) := by
    rw [nextAction_host hn]
    simp [hostMove, hp]
  exact step_done hact

end Sys2Proof.Machine

/-! # Results change at a Commit alone -/

namespace Sys2Proof.Machine

theorem SameController.lastOp {s u : State} (h : SameController s u) : u.lastOp = s.lastOp := by
  obtain ⟨_, _, _, _, _, rfl⟩ := h
  rfl

theorem SameController.req {s u : State} (h : SameController s u) : u.req = s.req := by
  obtain ⟨_, _, _, _, _, rfl⟩ := h
  rfl

/-- A running operation keeps LAST_OP to its end and through it (R27). -/
theorem microStep_lastOp {op : Op} {l : Listing} {n : Nat} {s t : State} (h : microStep op l n s = .next t) :
    t.lastOp = s.lastOp := by
  obtain ⟨m, -, ⟨what, -, -, rfl⟩ | ⟨-, -, rfl⟩ | ⟨c, -, rfl⟩⟩ := microStep_cases h
  · simp [commit_frame]
  · rfl
  · exact answer_lastOp op m c s

/-- Acceptance and controller reset alone change LAST_OP, and a busy controller accepts nothing (R100, R103). -/
theorem step_lastOp {s t : State} (h : step s = .next t) (hr : s.resetsNext = false) (hb : s.busy = true) :
    t.lastOp = s.lastOp := by
  cases step_cases h with
  | reset m hreset => rw [hr] at hreset; cases hreset
  | same u hu => exact hu.lastOp
  | status u v hu => exact hu.lastOp
  | ill u w b hu _ _ _ => exact hu.lastOp
  | ovr u hu _ => exact hu.lastOp
  | accept u w i hu hi _ _ => rw [busy_false.2 hi] at hb; cases hb
  | run u t op n hu _ hm => exact (microStep_lastOp hm).trans hu.lastOp

/-- Settles O54: what publishes is a Commit, which takes the controller from busy to idle. -/
theorem resultsChangeOnlyAtCommit : Obligations.ResultsChangeOnlyAtCommit := by
  unfold Obligations.ResultsChangeOnlyAtCommit
  intro s t h hr
  refine ⟨fun hno a h1 h3 => ?_, fun hb => congrArg (BitVec.setWidth 32) (step_lastOp h hr hb)⟩
  rcases step_publishes h hr with hres | ⟨u, op, n, what, -, hs, -, rfl⟩
  · exact hostRead_of_sameResults hres h1 h3
  · have hbusy : s.busy = true := busy_true.2 ⟨op, n, hs⟩
    have hidle : (commit what u).busy = false := busy_false.2 (by simp [commit_frame])
    simp [hbusy, hidle] at hno

end Sys2Proof.Machine

/-! # A pending call, and the stuck run -/

namespace Sys2Proof.Machine

/-- A listing's step with a call pending is the answer of that call (R104). -/
theorem microStep_pending {op : Op} {l : Listing} {n : Nat} {s t : State} {c : Call} (hc : s.req = some c)
    (h : microStep op l n s = .next t) : ∃ m, t = answer op m c s := by
  obtain ⟨m, -, ⟨_, -, hr, -⟩ | ⟨-, hr, -⟩ | ⟨c', hc', rfl⟩⟩ := microStep_cases h
  · rw [hc] at hr; cases hr
  · rw [hc] at hr; cases hr
  · rw [hc] at hc'; cases hc'
    exact ⟨m, rfl⟩

/-- A pending call stays, or it is answered, or controller reset abandons it (R70, R104, R221). -/
theorem step_req {s t : State} {c : Call} (hc : s.req = some c) (h : step s = .next t) :
    t.req = some c ∨ t.req = none := by
  cases step_cases h with
  | reset m _ => exact .inr rfl
  | same u hu => exact .inl (hu.req.trans hc)
  | status u v hu => exact .inl (hu.req.trans hc)
  | ill u w b hu _ _ _ => exact .inl (hu.req.trans hc)
  | ovr u hu _ => exact .inl (hu.req.trans hc)
  | accept u w i hu _ _ _ => exact .inl (hu.req.trans hc)
  | run u t op n hu _ hm =>
    obtain ⟨m, rfl⟩ := microStep_pending (hu.req.trans hc) hm
    exact .inr (answer_req op m c u)

/-- `t` differs from `s` at most in what a host changes while the controller is busy: ILL and OVR, its lines, what it has
read, and the free values it has drawn. -/
def SameOperation (s t : State) : Prop :=
  ∃ i o p d r, t = { s with ill := i, ovr := o, prog := p, draws := d, reads := r }

theorem SameOperation.refl (s : State) : SameOperation s s := ⟨_, _, _, _, _, rfl⟩

theorem SameOperation.trans {s t u : State} (h : SameOperation s t) (g : SameOperation t u) : SameOperation s u := by
  obtain ⟨_, _, _, _, _, rfl⟩ := h
  obtain ⟨_, _, _, _, _, rfl⟩ := g
  exact ⟨_, _, _, _, _, rfl⟩

/-- Nothing the host does to an operation's surroundings frees a stuck run. -/
theorem SameOperation.stuck {s t : State} (h : SameOperation s t) : t.stuck = s.stuck := by
  obtain ⟨_, _, _, _, _, rfl⟩ := h
  rfl

theorem SameOperation.seq {s t : State} (h : SameOperation s t) : t.seq = s.seq := by
  obtain ⟨_, _, _, _, _, rfl⟩ := h
  rfl

theorem SameOperation.req {s t : State} (h : SameOperation s t) : t.req = s.req := by
  obtain ⟨_, _, _, _, _, rfl⟩ := h
  rfl

theorem SameOperation.trace {s t : State} (h : SameOperation s t) : t.trace = s.trace := by
  obtain ⟨_, _, _, _, _, rfl⟩ := h
  rfl

/-- Of the host registers, STATUS alone shows what a host does beside a running operation. -/
theorem SameOperation.hostRead {s t : State} (h : SameOperation s t) {a : HAddr} (h1 : a ≠ 1) :
    t.hostRead a = s.hostRead a := by
  obtain ⟨_, _, _, _, _, rfl⟩ := h
  exact hostRead_congr a h1 rfl rfl rfl rfl rfl rfl rfl rfl rfl

theorem rmwLines_sameOperation (clr set : Byte) (rest : List HostLine) (s : State) :
    SameOperation s (rmwLines clr set rest s) := by
  rcases rmwLines_cases clr set rest s with ⟨_, _, e⟩ | ⟨_, _, e⟩ | ⟨_, e⟩ <;> rw [e] <;> exact ⟨_, _, _, _, _, rfl⟩

theorem noteRead_sameOperation (a : HAddr) (s : State) : SameOperation s (s.noteRead a) := ⟨_, _, _, _, _, rfl⟩

/-- While busy, a host write runs no command: it is an overrun, a STATUS write, or ignored (R62, R103). -/
theorem hostWrite_busy (a : HAddr) (v : Word) {s : State} (hb : s.busy = true) :
    ∃ t, hostWrite a v s = .done t ∧ SameOperation s t := by
  rcases hostWrite_cases a v s with ⟨_, _, e⟩ | ⟨_, hi, _⟩ | ⟨_, hi, _⟩ | ⟨_, e⟩ | ⟨_, _, e⟩
  · exact ⟨_, e, _, _, _, _, _, rfl⟩
  · rw [hb] at hi; cases hi
  · rw [hb] at hi; cases hi
  · exact ⟨_, e, _, _, _, _, _, rfl⟩
  · exact ⟨_, e, _, _, _, _, _, rfl⟩

/-- Every line of the host leaves the running operation alone (R67, R103). -/
theorem hostMove_busy {s : State} (hb : s.busy = true) : ∃ t, hostMove s = .done t ∧ SameOperation s t := by
  unfold hostMove
  split
  · exact ⟨_, rfl, .refl s⟩
  · rename_i a v rest _
    obtain ⟨t, e, ht⟩ := hostWrite_busy a v (s := { s with prog := rest }) hb
    exact ⟨t, e, .trans ⟨_, _, _, _, _, rfl⟩ ht⟩
  · exact ⟨_, rfl, _, _, _, _, _, rfl⟩
  · exact ⟨_, rfl, _, _, _, _, _, rfl⟩
  · exact ⟨_, rfl, (rmwLines_sameOperation _ _ _ s).trans (noteRead_sameOperation _ _)⟩

theorem stuck_iff {s : State} : s.stuck = true ↔ s.busy = true ∧ s.unanswered = true ∧ s.moves = [] := by
  simp [State.stuck, and_assoc]

/-- In a stuck run the host alone moves (R229, R233; log entry 16). -/
theorem step_stuck {s : State} (h : s.stuck = true) : ∃ t, step s = .next t ∧ SameOperation s t := by
  obtain ⟨hb, hu, hm⟩ := stuck_iff.1 h
  obtain ⟨t, ht, hsame⟩ := hostMove_busy hb
  exact ⟨t, step_done (by simp [nextAction_nil hm, defaultMove, hu, ht]), hsame⟩

/-- A run of one more step, from a state whose step answers a next state. -/
theorem run_succ {s t : State} (h : step s = .next t) (n : Nat) :
    Sys2Proof.core.run (n + 1) s = Sys2Proof.core.run n t := by
  have hstep : Sys2Proof.core.step s = .next t := h
  simp only [Host.Core.run, hstep]

/-- After any number of steps of a stuck run its operation is where it was. -/
theorem run_stuck (n : Nat) {s : State} (h : s.stuck = true) :
    ∃ t, Sys2Proof.core.run n s = .next t ∧ SameOperation s t := by
  induction n generalizing s with
  | zero => exact ⟨s, rfl, .refl s⟩
  | succ n ih =>
    obtain ⟨u, hstep, hsu⟩ := step_stuck h
    obtain ⟨t, hrun, hut⟩ := ih (hsu.stuck.trans h)
    exact ⟨t, (run_succ hstep n).trans hrun, hsu.trans hut⟩

/-- Settles O58: a step with a call pending keeps it or ends it, and the steps of a stuck run are the host's. -/
theorem aPendingCallIsNotReplaced : Obligations.APendingCallIsNotReplaced := by
  unfold Obligations.APendingCallIsNotReplaced
  refine ⟨fun s t c hc h => step_req hc h, fun s n h => ?_⟩
  obtain ⟨t, hrun, hst⟩ := run_stuck n h
  have hstuck : t.stuck = true := hst.stuck.trans h
  have hbusy : t.busy = true := (stuck_iff.1 hstuck).1
  exact ⟨t, hrun, hstuck, hst.req, hst.seq, hst.trace, fun a h1 => hst.hostRead h1,
    (statusRegisterBits t).1.2 (busy_iff.1 hbusy), by simp [State.runOver, hbusy]⟩

end Sys2Proof.Machine

/-! # The command word -/

namespace Sys2Proof.Machine

@[simp] theorem opcodeField_encode (i : Instr) : opcodeField (encode i) = opcodeOf i :=
  (Laws.CommandFields.fields (imm8Of i) (opcodeOf i)).1

@[simp] theorem imm8Field_encode (i : Instr) : imm8Field (encode i) = imm8Of i :=
  (Laws.CommandFields.fields (imm8Of i) (opcodeOf i)).2.1

/-- The decoder undoes the encoder: it finds the row of the opcode, and the operand byte beside it (R82, R86). -/
@[simp] theorem decode_encode (i : Instr) : decode (encode i) = .legal i :=
  calc decode (encode i)
      = decodeFields (opcodeOf i) (imm8Of i) := by rw [decode, opcodeField_encode, imm8Field_encode]
    _ = .legal (instrOf (opOf i) (imm8Of i)) := decodeFields_opcodeOf i (imm8Of i)
    _ = .legal i := by rw [instrOf_opOf]

/-- Settles O2: the encoder's two fields are the command's, and the decoder reads nothing else. -/
theorem decodeOfEncodeIsTheCommand : Obligations.DecodeOfEncodeIsTheCommand := by
  unfold Obligations.DecodeOfEncodeIsTheCommand
  exact decode_encode

/-- The opcode map and the `opcode` column say the same (R83). -/
theorem decodeFields_eq_legal {o b : Byte} {i : Instr} :
    decodeFields o b = .legal i ↔ opcodeOf i = o ∧ imm8Of i = b := by
  constructor
  · intro h
    unfold decodeFields at h
    split at h <;> cases h <;> exact ⟨rfl, rfl⟩
  · rintro ⟨rfl, rfl⟩
    rw [decodeFields_opcodeOf, instrOf_opOf]

/-- The opcodes that R83 assigns. -/
def assignedOpcodes : List Byte := [0xE3, 0xE5, 0xE6, 0xE7, 0xF3, 0xF5, 0xFA, 0xFE]

theorem mem_assignedOpcodes {o : Byte} : o ∈ assignedOpcodes ↔ ∃ i, opcodeOf i = o := by
  constructor
  · intro h
    simp only [assignedOpcodes, List.mem_cons, List.not_mem_nil, or_false] at h
    rcases h with rfl | rfl | rfl | rfl | rfl | rfl | rfl | rfl
    · exact ⟨.measTHold 0, rfl⟩
    · exact ⟨.measRhHold 0, rfl⟩
    · exact ⟨.uregWr 0, rfl⟩
    · exact ⟨.uregRd 0, rfl⟩
    · exact ⟨.measT 0, rfl⟩
    · exact ⟨.measRh 0, rfl⟩
    · exact ⟨.snRd 0, rfl⟩
    · exact ⟨.srst 0, rfl⟩
  · rintro ⟨i, rfl⟩
    cases i <;> simp [opcodeOf, assignedOpcodes]

/-- A word is illegal exactly where its opcode is no command's (R85). -/
theorem decodeFields_illegal_iff {o b : Byte} :
    (∃ c, decodeFields o b = .illegal c) ↔ o ∉ assignedOpcodes := by
  rw [mem_assignedOpcodes]
  constructor
  · rintro ⟨c, hc⟩ ⟨i, rfl⟩
    rw [decodeFields_opcodeOf] at hc
    cases hc
  · intro hno
    cases hd : decodeFields o b with
    | legal i => exact absurd ⟨i, (decodeFields_eq_legal.1 hd).1⟩ hno
    | illegal c => exact ⟨c, rfl⟩

/-- A byte that lies in the low 16 bits of a word is a byte of those bits. -/
theorem extractLsb'_setWidth_low (w : Word) {start : Nat} (h : start + 8 ≤ 16) :
    (w.setWidth 16).extractLsb' start 8 = w.extractLsb' start 8 := by
  apply BitVec.eq_of_getLsbD_eq
  intro j hj
  have hlt : start + j < 16 := by omega
  simp [hlt]

/-- Both fields lie in the low 16 bits of the word (R81). -/
theorem decode_setWidth (w : Word) :
    decode w = decodeFields ((w.setWidth 16).extractLsb' 0 8) ((w.setWidth 16).extractLsb' 8 8) := by
  rw [extractLsb'_setWidth_low w (by decide), extractLsb'_setWidth_low w (by decide)]
  rfl

/-- Settles O3: the opcode map row by row, and the fields of a word. -/
theorem decodeIsTheRowOfTheOpcodeField : Obligations.DecodeIsTheRowOfTheOpcodeField := by
  unfold Obligations.DecodeIsTheRowOfTheOpcodeField
  refine ⟨fun w i => decodeFields_eq_legal, fun w => decodeFields_illegal_iff, fun v w h => ?_⟩
  rw [decode_setWidth v, decode_setWidth w, h]

/-- Settles O1: the fields of each word, and its row of the map, by evaluation. -/
theorem specWordsDecode : Obligations.SpecWordsDecode := by
  unfold Obligations.SpecWordsDecode
  decide

/-! # The assembler -/

/-- A command that is not well-formed has an operand byte where R91 allows none. -/
theorem wf_eq_false {i : Instr} : i.wf = false ↔ imm8Of i ≠ 0 ∧ ∀ b, i ≠ .uregWr b := by
  cases i <;> simp [Instr.wf, imm8Of]

theorem assemble_wf {i : Instr} (h : i.wf = true) : assemble i = some (.hw haddrCmd (encode i)) := if_pos h

theorem assemble_eq_none {i : Instr} : assemble i = none ↔ i.wf = false := by
  simp [assemble]

/-- Settles O4: the assembler's word is the encoder's, and it refuses what is not well-formed. -/
theorem assemblerEmitsItsCommand : Obligations.AssemblerEmitsItsCommand := by
  unfold Obligations.AssemblerEmitsItsCommand
  exact fun i => ⟨fun h => ⟨encode i, assemble_wf h, decode_encode i⟩, assemble_eq_none.trans wf_eq_false⟩

end Sys2Proof.Machine

/-! # The lines of `wait_idle` and UREG.RMW -/

namespace Sys2Proof.Machine

/-- Where the host waits, the step reads STATUS, and the line stays while the controller is busy (R92). -/
theorem nextAction_waitIdle {s : State} {rest : List HostLine} (hn : s.hostMovesNext = true)
    (hp : s.prog = .waitIdle :: rest) :
    nextAction s = .done (State.noteRead haddrStatus
      { s with prog := if s.busy then .waitIdle :: rest else rest, moves := s.moves.tail }) := by
  rw [nextAction_host hn]
  simp only [hostMove, hp]
  rfl

/-- Where the host's next line is the conditional line of UREG.RMW, the step reads UREG after choosing the lines that
follow. -/
theorem nextAction_rmwUreg {s : State} {clr set : Byte} {rest : List HostLine} (hn : s.hostMovesNext = true)
    (hp : s.prog = .rmwUreg clr set :: rest) :
    nextAction s = .done (State.noteRead haddrUreg (rmwLines clr set rest { s with moves := s.moves.tail })) := by
  rw [nextAction_host hn]
  simp only [hostMove, hp]

theorem busy_ite {α : Type} (s : State) (x y : α) : (if s.busy then x else y) = if s.seq = .idle then y else x := by
  cases hs : s.seq <;> simp [State.busy, hs]

theorem lastReadZero_append {s : State} {before : List HostRead} {e : HostRead} (h : s.reads = before ++ [e]) :
    s.lastReadZero = true ↔ e.value = some 0 := by
  simp [State.lastReadZero, h]

theorem lastReadZero_nil {s : State} (h : s.reads = []) : s.lastReadZero = false := by
  simp [State.lastReadZero, h]

/-- After a read of 0, the conditional line of UREG.RMW is followed by its write half, with UREG or a free value (R92). -/
theorem rmwLines_write (clr set : Byte) (rest : List HostLine) {s : State} (h : s.lastReadZero = true) :
    rmwLines clr set rest s = { s with
      prog := rmwWrite clr set (if s.uregV then s.ureg else Config.freeByte s.draws) ++ rest,
      draws := if s.uregV then s.draws else s.draws + 1 } := by
  cases hu : s.uregV <;> simp [rmwLines, h, hu]

/-- After any other read, or none, nothing of its own follows (R92). -/
theorem rmwLines_skip (clr set : Byte) (rest : List HostLine) {s : State} (h : s.lastReadZero = false) :
    rmwLines clr set rest s = { s with prog := rest } :=
  if_neg (ne_true_of_eq_false h)

/-- Settles O21: each line's step, with the condition read off the host's last read. -/
theorem waitIdleAndReadModifyWrite : Obligations.WaitIdleAndReadModifyWrite := by
  unfold Obligations.WaitIdleAndReadModifyWrite
  intro s rest hn
  refine ⟨fun hp => ?_, fun clr set before e hp hr he => ?_, fun clr set hp hr => ?_⟩
  · rw [step_done (nextAction_waitIdle hn hp), busy_ite]
    rfl
  · have hzero : State.lastReadZero { s with moves := s.moves.tail } = true := (lastReadZero_append hr).2 he
    rw [step_done (nextAction_rmwUreg hn hp), rmwLines_write clr set rest hzero]
    rfl
  · have hnot : State.lastReadZero { s with moves := s.moves.tail } = false := by
      rcases hr with hnil | ⟨before, e, hr, he⟩
      · exact lastReadZero_nil hnil
      · exact Bool.eq_false_iff.2 fun hz => he ((lastReadZero_append hr).1 hz)
    rw [step_done (nextAction_rmwUreg hn hp), rmwLines_skip clr set rest hnot]
    rfl

end Sys2Proof.Machine

/-! # The running command's step, for each agent that may take it -/

namespace Sys2Proof.Machine

/-- While an operation runs, its step is `exec` of its command (R104). -/
theorem runningStep_run {op : Op} {n : Nat} {s : State} (hs : s.seq = .run op n) :
    runningStep s = .exec (instrOf op s.opnd) s := by
  simp [runningStep, hs]

/-- With no move listed and no call left unanswered, a running operation goes on, an answer drawn where the bus agent owes
one (log entries 1, 3 and 16). -/
theorem nextAction_default {op : Op} {n : Nat} {s : State} (hs : s.seq = .run op n) (hm : s.moves = [])
    (hu : s.unanswered = false) : nextAction s = runningStep (if s.busPending then drawAnswer s else s) := by
  have hb : s.busy = true := busy_true.2 ⟨op, n, hs⟩
  rw [nextAction_nil hm]
  exact if_pos (by simp [hb, hu])

theorem unanswered_fair {s : State} (h : s.agents = .fair) : s.unanswered = false := by
  simp [State.unanswered, h]

theorem unanswered_no_call {s : State} (h : s.req = none) : s.unanswered = false := by
  simp [State.unanswered, h]

/-- Settles O6: each agent's move, where the agent is enabled, is the running command's step. -/
theorem stepRunsTheRunningCommand : Obligations.StepRunsTheRunningCommand := by
  unfold Obligations.StepRunsTheRunningCommand
  intro s op n hs
  refine ⟨fun rest hm hr => step_exec ?_, fun a rest hm hb => step_exec ?_, fun rest hm hd => step_exec ?_,
    fun hm hf hb => step_exec ?_, fun hm hf hb => step_exec ?_⟩
  · exact (nextAction_cons hm).trans ((if_pos hr).trans (runningStep_run hs))
  · exact (nextAction_cons hm).trans ((if_pos hb).trans (runningStep_run hs))
  · exact (nextAction_cons hm).trans ((if_pos hd).trans (runningStep_run hs))
  · rw [nextAction_default hs hm (unanswered_fair hf), if_pos hb]
    exact runningStep_run hs
  · rw [nextAction_default hs hm (hf.elim unanswered_fair unanswered_no_call), if_neg (ne_true_of_eq_false hb)]
    exact runningStep_run hs

end Sys2Proof.Machine

/-! # Every operation reaches its Commit -/

namespace Sys2Proof.Machine

/-- At most so many micro-steps of MEAS_POLL stand before its Commit, at the given one, with `r` attempts of the budget
left: a failed attempt takes three, begin, write and wait, and the last one takes no wait (R116, R156). -/
def pollMicrosLeft (r : Nat) : Nat → Nat
  | 0 => 3 * r + 6
  | 1 => 3 * r + 5
  | 2 => 3 * r + 4
  | 3 => 3 * r + 3
  | 4 => 3 * r + 2
  | 5 => 3 * r + 4
  | 6 => 4
  | 7 => 3
  | 8 => 2
  | 9 => 1
  | 10 => 1
  | _ => 0

/-- At most so many micro-steps of an operation stand before its Commit, after `k` polling attempts (R116). -/
def microsLeft (op : Op) (n k : Nat) : Nat :=
  if op.polls then pollMicrosLeft (pollBudget - k) n else (listingOf op).length - 1 - n

/-- At most so many steps of a running operation are to come: two for each micro-step, of which the first is done where
a call is pending, and the Commit (R104, R116). -/
def State.stepsLeft (s : State) : Nat :=
  match s.seq with
  | .idle => 0
  | .run op n => 2 * microsLeft op n s.k.toNat + (if s.req = none then 1 else 0)

theorem stepsLeft_idle {s : State} (hs : s.seq = .idle) : s.stepsLeft = 0 := by
  simp [State.stepsLeft, hs]

theorem stepsLeft_atMicro {op : Op} {n : Nat} {s : State} (hs : s.seq = .run op n) (hr : s.req = none) :
    s.stepsLeft = 2 * microsLeft op n s.k.toNat + 1 := by
  simp [State.stepsLeft, hs, hr]

theorem stepsLeft_waits {op : Op} {n : Nat} {c : Call} {s : State} (hs : s.seq = .run op n) (hc : s.req = some c) :
    s.stepsLeft = 2 * microsLeft op n s.k.toNat := by
  simp [State.stepsLeft, hs, hc]

theorem pollMicrosLeft_le {r : Nat} (hr : r ≤ 200) (n : Nat) : pollMicrosLeft r n ≤ 606 := by
  unfold pollMicrosLeft
  split <;> omega

/-- The bound of R116. -/
theorem microsLeft_le (op : Op) (n k : Nat) : microsLeft op n k ≤ 606 := by
  unfold microsLeft
  split
  · exact pollMicrosLeft_le (by simp [pollBudget]) n
  · have hlen : (listingOf op).length ≤ 29 := by cases op <;> decide
    omega

theorem stepsLeft_le (s : State) : s.stepsLeft ≤ 1213 := by
  unfold State.stepsLeft
  split
  · omega
  · next op n _ =>
    have hle := microsLeft_le op n s.k.toNat
    split <;> omega

/-- A listing without the polling loop goes straight on. -/
theorem successor_of_straight_listing {op : Op} {n j : Nat} {m : Micro} (hp : op.polls = false)
    (hm : (listingOf op)[n]? = some m) (hj : j ∈ m.successors) : j = n + 1 := by
  have hall : ∀ op : Op, op.polls = false →
      ∀ p ∈ (listingOf op).zipIdx, ∀ i ∈ p.1.successors, i = p.2 + 1 := by
    intro op
    cases op <;> decide
  exact hall op hp (m, n) (List.mem_zipIdx_iff_getElem?.2 hm) j hj

theorem pollMicrosLeft_edge {n j : Nat} (h : (n, j) ∈ pollEdges) (r : Nat) :
    pollMicrosLeft r j < pollMicrosLeft r n := by
  simp only [pollEdges, List.mem_cons, Prod.mk.injEq, List.not_mem_nil, or_false] at h
  rcases h with ⟨rfl, rfl⟩ | ⟨rfl, rfl⟩ | ⟨rfl, rfl⟩ | ⟨rfl, rfl⟩ | ⟨rfl, rfl⟩ | ⟨rfl, rfl⟩ | ⟨rfl, rfl⟩ | ⟨rfl, rfl⟩ |
    ⟨rfl, rfl⟩ | ⟨rfl, rfl⟩ <;> simp [pollMicrosLeft]

/-- Every micro-step but the polling attempt brings its operation nearer to the Commit. -/
theorem microsLeft_successor {op : Op} {n j : Nat} {m : Micro} (hm : (listingOf op)[n]? = some m)
    (ha : ∀ data wait skip, m ≠ .attempt data wait skip) (hj : j ∈ m.successors) (k : Nat) :
    microsLeft op j k < microsLeft op n k := by
  unfold microsLeft
  cases hp : op.polls with
  | true => exact pollMicrosLeft_edge (successor_mem_pollEdges hp hm ha hj) _
  | false =>
    have hlt := successor_lt_length op m (List.mem_of_getElem? hm) j hj
    have hnext := successor_of_straight_listing hp hm hj
    simp only [Bool.false_eq_true, if_false]
    omega

/-- A polling attempt within the budget brings its operation nearer to the Commit, wherever it leads: it uses up an
attempt (R156, R157). -/
theorem microsLeft_attempt {op : Op} {j k : Nat} (hp : op.polls = true) (hk : k < pollBudget)
    (hj : j ∈ (Micro.attempt 6 5 10).successors) : microsLeft op j (k + 1) < microsLeft op 4 k := by
  simp only [microsLeft, hp, if_true]
  simp only [Micro.successors, List.mem_cons, List.not_mem_nil, or_false] at hj
  rcases hj with rfl | rfl | rfl <;> simp only [pollMicrosLeft] <;> omega

/-- The answer to a polling attempt counts it (R152 s4). -/
theorem answer_attempt_k (data wait skip : Nat) (op : Op) (c : Call) (s : State) :
    (answer op (.attempt data wait skip) c s).k = (countAttempt s.busIn.resp s).k := by
  rcases afterAttempt_cases data wait skip op (countAttempt s.busIn.resp (record c s)) with
    ⟨_, e⟩ | ⟨_, _, e⟩ | ⟨_, _, _, e⟩ | ⟨_, _, _, e⟩ <;> simp [answer, deliver, e]

/-- Every micro-step but the Commit has a call (R104). -/
theorem call_of_not_commit {m : Micro} (s : State) (h : ∀ what, m ≠ .commit what) : ∃ c, m.call s = some c := by
  cases m with
  | commit what => exact absurd rfl (h what)
  | _ => exact ⟨_, rfl⟩

/-- With nothing pending at a micro-step that is no Commit, the step of the listing issues its call (R104). -/
theorem microStep_issue {op : Op} {l : Listing} {n : Nat} {m : Micro} {s : State} (hm : l[n]? = some m)
    (hr : s.req = none) (h : ∀ what, m ≠ .commit what) : microStep op l n s = .next (issue (m.call s) s) := by
  cases m with
  | commit what => exact absurd rfl (h what)
  | _ => simp [microStep, hm, hr]

section Running

variable {op : Op} {n : Nat} {s : State} (h : s.Inv) (hs : s.seq = .run op n)

include h hs

/-- An answered call brings its operation nearer to the Commit (R116). -/
theorem microsLeft_answer {m : Micro} (hm : (listingOf op)[n]? = some m) (hnc : ∀ what, m ≠ .commit what) (c : Call) :
    ∃ j, (answer op m c s).seq = .run op j ∧
      microsLeft op j (answer op m c s).k.toNat < microsLeft op n s.k.toNat := by
  obtain ⟨j, hj, hseq⟩ := answer_successor (op := op) c s hnc
  refine ⟨j, hseq, ?_⟩
  by_cases ha : ∃ data wait skip, m = .attempt data wait skip
  · obtain ⟨data, wait, skip, rfl⟩ := ha
    obtain ⟨hp, rfl, rfl, rfl, rfl⟩ := attempt_of_listing hm
    obtain ⟨hk, -⟩ := attempt_state h hs hp rfl
    rw [answer_attempt_k, countAttempt_k_toNat _ hk]
    exact microsLeft_attempt hp hk hj
  · have hna : ∀ data wait skip, m ≠ .attempt data wait skip := fun d w k e => ha ⟨d, w, k, e⟩
    obtain ⟨hk, -, -⟩ := answer_working (op := op) c s hna
    rw [hk]
    exact microsLeft_successor hm hna hj _

/-- Every step of a running listing leaves fewer steps to come. -/
theorem microStep_stepsLeft {t : State} (ht : microStep op (listingOf op) n s = .next t) :
    t.stepsLeft < s.stepsLeft := by
  obtain ⟨m, hm, ⟨what, rfl, hr, rfl⟩ | ⟨hnc, hr, rfl⟩ | ⟨c, hc, rfl⟩⟩ := microStep_cases ht
  · rw [stepsLeft_idle (by simp [commit_frame]), stepsLeft_atMicro hs hr]
    omega
  · obtain ⟨c, hc⟩ := call_of_not_commit s hnc
    rw [stepsLeft_waits (s := issue (m.call s) s) hs hc, stepsLeft_atMicro hs hr, issue_k]
    omega
  · have hnc : ∀ what, m ≠ .commit what := by
      rintro what rfl
      cases h.pending hs hm hc
    obtain ⟨j, hseq, hlt⟩ := microsLeft_answer h hs hm hnc c
    rw [stepsLeft_atMicro hseq (answer_req op m c s), stepsLeft_waits hs hc]
    omega

/-- Where no move is listed and the agents answer, a running operation's step leaves fewer steps to come, and touches
neither the moves nor the host's lines. -/
theorem step_stepsLeft (hm : s.moves = []) (hf : s.agents = .fair) :
    ∃ t, step s = .next t ∧ t.stepsLeft < s.stepsLeft ∧ t.moves = [] ∧ t.agents = .fair ∧ t.prog = s.prog := by
  obtain ⟨-, -, -, hdraw, hplain⟩ := stepRunsTheRunningCommand s op n hs
  obtain ⟨u, hu, hstep, hleft, hmoves, hagents, hprog⟩ : ∃ u, SameController s u ∧
      step s = exec (instrOf op s.opnd) u ∧ u.stepsLeft = s.stepsLeft ∧ u.moves = [] ∧ u.agents = .fair ∧
      u.prog = s.prog := by
    cases hb : s.busPending with
    | true => exact ⟨_, ⟨_, _, _, _, _, rfl⟩, hdraw hm hf hb, rfl, hm, hf, rfl⟩
    | false => exact ⟨s, ⟨_, _, _, _, _, rfl⟩, hplain hm (.inl hf) hb, rfl, hm, hf, rfl⟩
  have hus : u.seq = .run op n := hu.seq.trans hs
  obtain ⟨t, ht⟩ := microStep_next (op := op) u (h.lt_length hs)
  obtain ⟨-, -, hsame⟩ := microStep_frame ht
  exact ⟨t, hstep.trans ((exec_running hus _).trans ht),
    hleft ▸ microStep_stepsLeft (sameController_inv h hu) hus ht,
    hsame.moves.trans hmoves, hsame.agents.trans hagents, hsame.prog.trans hprog⟩

end Running

/-- From a sound state with no move listed and agents that answer, the sequencer is idle within the steps counted. -/
theorem run_to_idle {s : State} (h : s.Inv) (hm : s.moves = []) (hf : s.agents = .fair) :
    ∃ n t, n ≤ s.stepsLeft ∧ Sys2Proof.core.run n s = .next t ∧ t.Inv ∧ t.seq = .idle ∧ t.moves = [] ∧
      t.prog = s.prog := by
  cases hs : s.seq with
  | idle => exact ⟨0, s, Nat.zero_le _, rfl, h, hs, hm, rfl⟩
  | run op j =>
    obtain ⟨u, hstep, hlt, hmu, hfu, hpu⟩ := step_stepsLeft h hs hm hf
    obtain ⟨n, t, hn, hrun, hinv, hidle, hmt, hpt⟩ := run_to_idle (everyStepKeepsTheInvariant s u h hstep) hmu hfu
    exact ⟨n + 1, t, by omega, (run_succ hstep n).trans hrun, hinv, hidle, hmt, hpt.trans hpu⟩
termination_by s.stepsLeft

/-- Settles O53: every step brings the operation nearer to its Commit, from at most the steps R116 counts. -/
theorem everyOperationReachesCommit : Obligations.EveryOperationReachesCommit := by
  unfold Obligations.EveryOperationReachesCommit
  intro s h _ hm hf
  obtain ⟨n, t, hn, hrun, hinv, hidle, hmt, hpt⟩ := run_to_idle h hm hf
  have hreq : t.req = none := hinv.idle_req hidle
  exact ⟨n, t, hn.trans (stepsLeft_le s), hrun, hidle, hreq, hmt, hpt,
    fun hp => by simp [State.runOver, hpt, hp, busy_false.2 hidle, hreq]⟩

end Sys2Proof.Machine

/-! # What starts an operation, and what a step adds to the trace -/

namespace Sys2Proof.Machine

theorem SameController.trace {s u : State} (h : SameController s u) : u.trace = s.trace := by
  obtain ⟨_, _, _, _, _, rfl⟩ := h
  rfl

/-- A step of a listing leaves the trace, or answers the pending call and records it (R104, R117). -/
theorem microStep_trace {op : Op} {l : Listing} {n : Nat} {s t : State} (h : microStep op l n s = .next t) :
    t.trace = s.trace ∨ ∃ c e, s.req = some c ∧ t.req = none ∧ t.trace = s.trace ++ [e] := by
  obtain ⟨m, -, ⟨what, -, -, rfl⟩ | ⟨-, -, rfl⟩ | ⟨c, hc, rfl⟩⟩ := microStep_cases h
  · exact .inl (by simp [commit_frame])
  · exact .inl rfl
  · exact .inr ⟨c, c.event s.busIn, hc, answer_req op m c s, by simp [answer_frame]⟩

/-- Settles O57: of the cases of a step, the running listing's alone touches the trace. -/
theorem traceIsOnlyAppendedTo : Obligations.TraceIsOnlyAppendedTo := by
  unfold Obligations.TraceIsOnlyAppendedTo
  intro s t h
  cases step_cases h with
  | reset m _ => exact .inl rfl
  | same u hu => exact .inl hu.trace
  | status u v hu => exact .inl hu.trace
  | ill u w b hu _ _ _ => exact .inl hu.trace
  | ovr u hu _ => exact .inl hu.trace
  | accept u w i hu _ _ _ => exact .inl hu.trace
  | run u t op n hu _ ht =>
    rw [← hu.trace, ← hu.req]
    exact microStep_trace ht

/-- From IDLE, a step makes no call, and the operation that runs after it was accepted by it (R100, R101). -/
theorem step_from_idle {s t : State} (hs : s.seq = .idle) (h : step s = .next t) :
    t.trace = s.trace ∧ (s.req = none → t.req = none) ∧
      (t.busy = true → ∃ w i, s.cmdWriteNext = some w ∧ decode w = .legal i ∧ t.seq = .run (opOf i) 0) := by
  have hidle : ∀ {v : State}, v.seq = s.seq → ¬v.busy = true :=
    fun hv => ne_true_of_eq_false (busy_false.2 (hv.trans hs))
  cases step_cases h with
  | reset m _ => exact ⟨rfl, fun _ => rfl, nofun⟩
  | same u hu => exact ⟨hu.trace, hu.req.trans, fun hb => absurd hb (hidle hu.seq)⟩
  | status u v hu => exact ⟨hu.trace, hu.req.trans, fun hb => absurd hb (hidle hu.seq)⟩
  | ill u w b hu _ _ _ => exact ⟨hu.trace, hu.req.trans, fun hb => absurd hb (hidle hu.seq)⟩
  | ovr u hu _ => exact ⟨hu.trace, hu.req.trans, fun hb => absurd hb (hidle hu.seq)⟩
  | accept u w i hu _ hw hd => exact ⟨hu.trace, hu.req.trans, fun _ => ⟨w, i, hw, hd, rfl⟩⟩
  | run u t op n _ hrun _ => rw [hs] at hrun; cases hrun

/-- In IDLE with nothing pending, the sequencer, the bus agent and the timer have nothing to do (R101, R221). -/
theorem step_idle_unmoved {s : State} (hs : s.seq = .idle) (hr : s.req = none) (hh : s.hostMovesNext = false)
    (hreset : s.resetsNext = false) : step s = .next { s with moves := s.moves.tail } := by
  cases hm : s.moves with
  | nil => simp [State.hostMovesNext, hm, busy_false.2 hs] at hh
  | cons m rest =>
    obtain ⟨-, hbus, htimer⟩ := disabledAgentsChangeNothing s rest
    cases m with
    | host => simp [State.hostMovesNext, hm] at hh
    | reset => simp [State.resetsNext, hm] at hreset
    | sequencer =>
      refine step_done ((nextAction_cons hm).trans ((if_pos hr).trans ?_))
      simp [runningStep, hs]
    | bus a => exact hbus a hm (by simp [State.busPending, hr])
    | timer => exact htimer hm (by simp [State.delayPending, hr])

/-- Settles O8: from IDLE the one step that starts anything is an acceptance. -/
theorem onlyACommandWriteStartsAnOperation : Obligations.OnlyACommandWriteStartsAnOperation := by
  unfold Obligations.OnlyACommandWriteStartsAnOperation
  intro s t hs h
  obtain ⟨htrace, hreq, hbusy⟩ := step_from_idle hs h
  refine ⟨htrace, hreq, hbusy, fun hr hh hreset => ?_⟩
  rw [step_idle_unmoved hs hr hh hreset] at h
  cases h
  rfl

end Sys2Proof.Machine

/-! # Command issue -/

namespace Sys2Proof.Machine

/-- Where the host is about to write CMD, the step is that write (R62). -/
theorem nextAction_issues {s : State} {w : Word} {rest : List HostLine} (h : s.issues w rest) :
    nextAction s = writeCmd w { s with prog := rest, moves := s.moves.tail } :=
  have ⟨hn, hp⟩ := h
  (nextAction_hw hn hp).trans (if_pos rfl)

/-- Settles O10: in IDLE a command is accepted, whatever its listing. -/
theorem everyCommandIsAcceptedWhenIdle : Obligations.EveryCommandIsAcceptedWhenIdle := by
  unfold Obligations.EveryCommandIsAcceptedWhenIdle
  intro i s hs
  simp [exec_eq, command, hs, accept]

/-- Settles O9: the step runs the decoded command, which is accepted; its fields are those of the word. -/
theorem acceptWritesLastOpAndOperand : Obligations.AcceptWritesLastOpAndOperand := by
  unfold Obligations.AcceptWritesLastOpAndOperand
  intro s w rest i hs hi hd
  obtain ⟨hop, himm⟩ := (decodeIsTheRowOfTheOpcodeField.1 w i).1 hd
  rw [stepRunsTheIssuedCommand s w rest i hs hi hd,
    everyCommandIsAcceptedWhenIdle i { s with prog := rest, moves := s.moves.tail } hs, hop, himm]
  rfl

/-- Settles O11: while idle, an undecodable word is answered by ILL. -/
theorem illegalCommandSetsIllOnly : Obligations.IllegalCommandSetsIllOnly := by
  unfold Obligations.IllegalCommandSetsIllOnly
  intro s w rest b hs hi hd
  apply step_done
  rw [nextAction_issues hi]
  simp [writeCmd, State.busy, hs, hd, State.setIll]

/-- Settles O12: while busy, a word written to CMD is not decoded. -/
theorem overrunSetsOvrOnly : Obligations.OverrunSetsOvrOnly := by
  unfold Obligations.OverrunSetsOvrOnly
  intro s w rest hs hi
  apply step_done
  rw [nextAction_issues hi]
  exact if_pos (busy_iff.2 hs)

/-- Settles O13: a command steps a listing only while its own operation runs. -/
theorem anotherCommandIsDropped : Obligations.AnotherCommandIsDropped := by
  unfold Obligations.AnotherCommandIsDropped
  intro i s op n hs ho
  simp [exec_eq, command, hs, ho, State.setOvr]

end Sys2Proof.Machine

/-! # The calls of a listing and their answers -/

namespace Sys2Proof.Machine

/-- `exec` of the running command with a call pending answers that call (R104). -/
theorem exec_waits {op : Op} {n : Nat} {c : Call} {m : Micro} {s : State} (h : s.waits op n c)
    (hm : (listingOf op)[n]? = some m) : exec (instrOf op s.opnd) s = .next (answer op m c s) := by
  obtain ⟨hs, hc⟩ := h
  simp [exec_running hs, microStep, hm, hc]

/-- Settles O22: with nothing pending, a micro-step that is no Commit has a call, and the step issues it. -/
theorem sequencerIssuesTheListedCall : Obligations.SequencerIssuesTheListedCall := by
  unfold Obligations.SequencerIssuesTheListedCall
  intro op n m s ⟨hs, hr⟩ hm hnc
  obtain ⟨c, hc⟩ := call_of_not_commit s hnc
  exact ⟨c, hc, (exec_running hs _).trans ((microStep_issue hm hr hnc).trans (by rw [hc]; rfl))⟩

/-- Settles O23: the flag a write's answer adds to acc is `respFlags`, by cases on the answer. -/
theorem accumulatedWriteAddsItsFlag : Obligations.AccumulatedWriteAddsItsFlag := by
  unfold Obligations.AccumulatedWriteAddsItsFlag
  intro op n next b sent s hw hm
  rw [exec_waits hw hm]
  cases hresp : s.busIn.resp <;>
    simp [answer, deliver, record, State.accumulate, State.goto, Call.event, respFlags, errBit, hresp]

/-- Settles O24: `State.store` touches none of the fields that record the call and go on, whatever its destination. -/
theorem busReadStoresItsByte : Obligations.BusReadStoresItsByte := by
  unfold Obligations.BusReadStoresItsByte
  intro op n next p dst s hw hm
  rw [exec_waits hw hm]
  cases dst <;> rfl

/-- Settles O25: each of the three deliveries only goes on. -/
theorem beginEndAndDelayChangeNoRegister : Obligations.BeginEndAndDelayChangeNoRegister := by
  unfold Obligations.BeginEndAndDelayChangeNoRegister
  intro op n next s
  exact ⟨fun hm hw => exec_waits hw hm, fun hm hw => exec_waits hw hm, fun d hm hw => exec_waits hw hm⟩

end Sys2Proof.Machine

/-! # What each Commit publishes -/

namespace Sys2Proof.Machine

/-- `s` after validation: acc alone may change, by ERR_CRC (R133). -/
def validated (wire : List Byte) (s : State) : State :=
  { s with acc := if crcIn s.params.crcOrder wire ≠ s.c then s.acc ||| errBit .crc else s.acc }

theorem checkCrc_eq (wire : List Byte) (s : State) : checkCrc wire s = validated wire s := by
  by_cases hc : crcIn s.params.crcOrder wire = s.c
  · simp [checkCrc, validate, validated, hc]
  · simp [checkCrc, validate, validated, hc, State.accumulate]

theorem commit_ureg (s : State) :
    commit .ureg s = publish { validated [s.d0] s with ureg := s.d0, uregV := true } := by
  rw [commit, Commit.assign, checkCrc_eq]
  rfl

theorem commit_polled (kind : Kind) (s : State) :
    commit (.polled kind) s = publish (writeAttempts (writeMeasurement kind (validated [s.d0, s.d1] s))) := by
  rw [commit, Commit.assign, checkCrc_eq]

theorem commit_held (kind : Kind) (s : State) :
    commit (.held kind) s = publish (writeMeasurement kind (validated [s.d0, s.d1] s)) := by
  rw [commit, Commit.assign, checkCrc_eq]

/-- One byte has one order (R131). -/
theorem crcIn_singleton (order : CrcOrder) (b : Byte) : crcIn order [b] = crc8 [b] := by
  cases order <;> rfl

/-- Settles O27: the one byte of UREG is validated in either order, and published whatever the outcome. -/
theorem uregRdCommitPublishesTheByte : Obligations.UregRdCommitPublishesTheByte := by
  unfold Obligations.UregRdCommitPublishesTheByte
  intro imm8 s ⟨hs, hr⟩
  rw [exec_commit (i := .uregRd imm8) hs hr rfl, commit_ureg, validated, crcIn_singleton]
  simp only [ne_eq, ite_not]
  rfl

/-- Settles O28: both listings end in the Commit that assigns no result. -/
theorem uregWrAndSrstCommitPublishOnlyErr : Obligations.UregWrAndSrstCommitPublishOnlyErr := by
  unfold Obligations.UregWrAndSrstCommitPublishOnlyErr
  intro imm8 s
  exact ⟨fun ⟨hs, hr⟩ => exec_commit (i := .uregWr imm8) (what := .nothing) hs hr rfl,
    fun ⟨hs, hr⟩ => exec_commit (i := .srst imm8) (what := .nothing) hs hr rfl⟩

/-- Settles O29: the polled Commit validates both bytes and writes the humidity registers and ATTEMPTS. -/
theorem measRhCommitPublishesHumidity : Obligations.MeasRhCommitPublishesHumidity := by
  unfold Obligations.MeasRhCommitPublishesHumidity
  intro imm8 s ⟨hs, hr⟩
  rw [exec_commit (i := .measRh imm8) hs hr rfl, commit_polled]
  rfl

/-- Settles O30: the polled Commit validates both bytes and writes the temperature registers and ATTEMPTS. -/
theorem measTCommitPublishesTemperature : Obligations.MeasTCommitPublishesTemperature := by
  unfold Obligations.MeasTCommitPublishesTemperature
  intro imm8 s ⟨hs, hr⟩
  rw [exec_commit (i := .measT imm8) hs hr rfl, commit_polled]
  rfl

/-- Settles O31: micro-step 12 of either polled listing is the Commit that writes ATTEMPTS alone. -/
theorem skippedMeasurementCommitsAttemptsOnly : Obligations.SkippedMeasurementCommitsAttemptsOnly := by
  unfold Obligations.SkippedMeasurementCommitsAttemptsOnly
  intro kind imm8 s ⟨hs, hr⟩
  have hm : (listingOf (opOf (pollCommand kind imm8)))[12]? = some (.commit .attemptsOnly) := by cases kind <;> rfl
  exact exec_commit hs hr hm

/-- Settles O32: the held Commit validates both bytes and writes the registers of its kind. -/
theorem holdCommitsLeaveAttempts : Obligations.HoldCommitsLeaveAttempts := by
  unfold Obligations.HoldCommitsLeaveAttempts
  intro imm8 s
  constructor
  · intro ⟨hs, hr⟩
    rw [exec_commit (i := .measRhHold imm8) hs hr rfl, commit_held]
    rfl
  · intro ⟨hs, hr⟩
    rw [exec_commit (i := .measTHold imm8) hs hr rfl, commit_held]
    rfl

/-- Settles O33: the serial number's Commit validates nothing. -/
theorem snRdCommitPublishesEightBytes : Obligations.SnRdCommitPublishesEightBytes := by
  unfold Obligations.SnRdCommitPublishesEightBytes
  intro imm8 s ⟨hs, hr⟩
  exact exec_commit (i := .snRd imm8) (what := .serial) hs hr rfl

end Sys2Proof.Machine

/-! # The CRC and the validator

Each shift of R130 is linear over XOR, and from it the register after any list; so a flipped bit changes the CRC by
the CRC of the message that holds that bit alone. No shift sends a register other than 0 to 0, so that CRC is not 0. -/

namespace Sys2Proof.Machine

/-- The 8-bit form of the shift that R130 gives beside the 9-bit one. -/
theorem crcShift_eq (r : Byte) : crcShift r = (r <<< 1) ^^^ (if r.getLsbD 7 then 0x31#8 else 0#8) := by
  have shift_nine : (r.setWidth 9 <<< 1).setWidth 8 = r <<< 1 := by
    ext i hi
    simp
  have poly : crcPoly.setWidth 8 = 0x31#8 := by decide
  unfold crcShift
  split <;> simp [BitVec.setWidth_xor, shift_nine, poly]

theorem crcShift_xor (r s : Byte) : crcShift (r ^^^ s) = crcShift r ^^^ crcShift s := by
  have poly_xor (a b : Bool) : (if a ^^ b then 0x31#8 else 0#8) =
      (if a then 0x31#8 else 0#8) ^^^ (if b then 0x31#8 else 0#8) := by
    cases a <;> cases b <;> rfl
  simp only [crcShift_eq, BitVec.shiftLeft_xor_distrib, BitVec.getLsbD_xor, poly_xor]
  ac_rfl

theorem crcShifts_xor (n : Nat) (r s : Byte) : crcShifts n (r ^^^ s) = crcShifts n r ^^^ crcShifts n s := by
  induction n generalizing r s with
  | zero => rfl
  | succ n ih => simp only [crcShifts, crcShift_xor, ih]

theorem crcByte_xor (r s p q : Byte) : crcByte (r ^^^ s) (p ^^^ q) = crcByte r p ^^^ crcByte s q := by
  rw [crcByte, crcByte, crcByte, ← crcShifts_xor]
  congr 1
  ac_rfl

/-- The register after two lists of equal length, from any two registers. -/
theorem foldl_crcByte_xor (xs ys : List Byte) (hlen : xs.length = ys.length) (r s : Byte) :
    (List.zipWith (fun x y => x ^^^ y) xs ys).foldl crcByte (r ^^^ s) =
      xs.foldl crcByte r ^^^ ys.foldl crcByte s := by
  induction xs generalizing ys r s with
  | nil => cases ys with
    | nil => rfl
    | cons y ys => simp at hlen
  | cons x xs ih => cases ys with
    | nil => simp at hlen
    | cons y ys =>
      simp only [List.zipWith_cons_cons, List.foldl_cons, crcByte_xor, ih ys (Nat.succ.inj hlen)]

/-- Settles O43: the initial register 0 is the XOR of two initial registers 0 (R135). -/
theorem crcIsLinear : Obligations.CrcIsLinear := by
  unfold Obligations.CrcIsLinear
  intro xs ys hlen
  exact foldl_crcByte_xor xs ys hlen 0 0

theorem crcIn_xor (order : CrcOrder) {xs ys : List Byte} (hlen : xs.length = ys.length) :
    crcIn order (List.zipWith (fun x y => x ^^^ y) xs ys) = crcIn order xs ^^^ crcIn order ys := by
  cases order with
  | wire => exact crcIsLinear xs ys hlen
  | reverseWire =>
    simp only [crcIn, List.reverse_zipWith hlen]
    exact crcIsLinear _ _ (by simpa using hlen)

theorem validate_eq_noError {order : CrcOrder} {wire : List Byte} {c : Byte} :
    validate order wire c = .noError ↔ crcIn order wire = c := by
  simp [validate]

theorem validate_eq_checksumError {order : CrcOrder} {wire : List Byte} {c : Byte} :
    validate order wire c = .checksumError ↔ crcIn order wire ≠ c := by
  simp [validate]

/-- An error pattern is detected when its own CRC is not 0, whatever valid message it falls on. -/
theorem validate_xor_error {order : CrcOrder} {wire err : List Byte} {c : Byte}
    (hvalid : validate order wire c = .noError) (herr : crcIn order err ≠ 0#8) (hlen : wire.length = err.length) :
    validate order (List.zipWith (fun x y => x ^^^ y) wire err) c = .checksumError := by
  rw [validate_eq_noError] at hvalid
  rw [validate_eq_checksumError, crcIn_xor order hlen, hvalid]
  simpa using herr

/-- The polynomial's constant term tells a shift that XORs it from one that does not, and the other shift loses no
bit that is set. -/
theorem crcShift_eq_zero {r : Byte} : crcShift r = 0#8 ↔ r = 0#8 := by
  refine ⟨fun h => ?_, fun h => by rw [h]; decide⟩
  rw [crcShift_eq] at h
  have htop : r.getLsbD 7 = false := by
    have hlow := congrArg (BitVec.getLsbD · 0) h
    by_contra hset
    simp [Bool.eq_true_of_not_eq_false hset] at hlow
  rw [htop] at h
  ext i hi
  have hbit := congrArg (BitVec.getLsbD · (i + 1)) h
  rcases Nat.lt_or_ge i 7 with hlt | hge
  · have hnext : i + 1 < 8 := by omega
    simpa [BitVec.getLsbD_eq_getElem, hi, hnext] using hbit
  · obtain rfl : i = 7 := by omega
    simpa using htop

theorem crcShifts_eq_zero {n : Nat} {r : Byte} : crcShifts n r = 0#8 ↔ r = 0#8 := by
  induction n generalizing r with
  | zero => rfl
  | succ n ih => rw [crcShifts, ih, crcShift_eq_zero]

theorem crcByte_eq_zero {r p : Byte} : crcByte r p = 0#8 ↔ r = p := by
  rw [crcByte, crcShifts_eq_zero, BitVec.xor_eq_zero_iff]

theorem crc8_singleton_eq_zero {e : Byte} : crc8 [e] = 0#8 ↔ e = 0#8 :=
  crcByte_eq_zero.trans eq_comm

/-- A byte 0 before the pattern leaves the initial register 0. -/
theorem crc8_zero_cons (es : List Byte) : crc8 (0#8 :: es) = crc8 es := by
  have hinit : crcByte 0 0#8 = 0 := crcByte_eq_zero.mpr rfl
  rw [crc8, List.foldl_cons, hinit, crc8]

/-- A byte 0 after the pattern shifts its CRC, and keeps whether it is 0. -/
theorem crc8_append_zero_eq_zero {es : List Byte} : crc8 (es ++ [0#8]) = 0#8 ↔ crc8 es = 0#8 := by
  rw [crc8, List.foldl_append]
  exact crcByte_eq_zero

/-- An error in one byte of two has a CRC that is not 0, under either order. -/
theorem crcIn_pair_ne_zero (order : CrcOrder) {e : Byte} (he : e ≠ 0#8) :
    crcIn order [e, 0#8] ≠ 0#8 ∧ crcIn order [0#8, e] ≠ 0#8 := by
  have hlast : crc8 [0#8, e] ≠ 0#8 := by rwa [crc8_zero_cons, ne_eq, crc8_singleton_eq_zero]
  have hfirst : crc8 [e, 0#8] ≠ 0#8 := by
    rwa [← List.singleton_append, ne_eq, crc8_append_zero_eq_zero, crc8_singleton_eq_zero]
  cases order with
  | wire => exact ⟨hfirst, hlast⟩
  | reverseWire => exact ⟨hlast, hfirst⟩

theorem oneBit_ne_zero (j : Fin 8) : 1#8 <<< j.val ≠ 0#8 := by
  revert j
  decide

/-- Settles O44: the flip is the XOR with a message that holds the flipped bit alone (R136). -/
theorem singleBitFlipFailsValidation : Obligations.SingleBitFlipFailsValidation := by
  unfold Obligations.SingleBitFlipFailsValidation
  intro order x y c j
  have hbit := oneBit_ne_zero j
  have honly : crcIn order [1#8 <<< j.val] ≠ 0#8 := by rwa [crcIn_singleton, ne_eq, crc8_singleton_eq_zero]
  obtain ⟨hfirst, hlast⟩ := crcIn_pair_ne_zero order hbit
  refine ⟨fun hvalid => ?_, fun hvalid => ⟨?_, ?_⟩⟩
  · exact validate_xor_error hvalid honly rfl
  · simpa using validate_xor_error hvalid hfirst rfl
  · simpa using validate_xor_error hvalid hlast rfl

end Sys2Proof.Machine

/-! # A row of bus calls, from the write to CMD to the step at the Commit

A bus call takes two steps, the sequencer's issue and the bus agent's answer (R104, R108). Where the listing goes straight
on, what a row of them does is said in two parts: what each answer does to the working registers (`receiveAll`), and where
the sequencer and the agents then stand (`State.called`). -/

namespace Sys2Proof.Machine

/-- `m` makes a bus call, and micro-step `next` follows it whatever the answer (R104, R111). -/
def Micro.busCallTo (next : Nat) : Micro → Bool
  | .busBegin j => j == next
  | .busEnd j => j == next
  | .writeAcc _ j => j == next
  | .read _ _ j => j == next
  | .attempt _ _ _ => false
  | .delay _ _ => false
  | .commit _ => false

/-- The micro-steps `ms`, the first with index `n`, make one bus call each and follow one another. -/
def straightCalls (n : Nat) : Listing → Bool
  | [] => true
  | m :: ms => m.busCallTo (n + 1) && straightCalls (n + 1) ms

/-- What the answer `a` to the call of a straight micro-step does to the working registers (R109, R110). -/
def Micro.receive (a : BusAnswer) (s : State) : Micro → State
  | .writeAcc _ _ => s.accumulate (respFlags s.params a.resp)
  | .read _ dst _ => s.store dst a.byte
  | _ => s

/-- What a row of answers does to the working registers. -/
def receiveAll : Listing → List BusAnswer → State → State
  | m :: ms, a :: answers, s => receiveAll ms answers (m.receive a s)
  | _, _, s => s

/-- What the calls of `ms`, so answered, leave in the trace (R117). -/
def callEvents (s : State) (ms : Listing) (answers : List BusAnswer) : List BusEvent :=
  (ms.zip answers).filterMap fun p => (p.1.call s).map (Call.event p.2)

/-- `s` with the sequencer at micro-step `n`, nothing pending, the bus agent's last answer `a`, the moves to come `rest`,
and the trace longer by `events`. -/
def State.called (op : Op) (n : Nat) (a : BusAnswer) (rest : List Move) (events : List BusEvent) (s : State) : State :=
  { s with seq := .run op n, req := none, busIn := a, moves := rest, trace := s.trace ++ events }

/-- What a row of bus calls from micro-step `n` on leaves: the answers received, and the sequencer at the micro-step after
the row. -/
def afterCalls (op : Op) (n : Nat) (ms : Listing) (answers : List BusAnswer) (rest : List Move) (s : State) : State :=
  (receiveAll ms answers s).called op (n + ms.length) (answers.getLastD s.busIn) rest (callEvents s ms answers)

theorem State.called_atMicro (op : Op) (n : Nat) (a : BusAnswer) (rest : List Move) (events : List BusEvent)
    (s : State) : (s.called op n a rest events).atMicro op n := ⟨rfl, rfl⟩

theorem afterCalls_atMicro (op : Op) (n : Nat) (ms : Listing) (answers : List BusAnswer) (rest : List Move)
    (s : State) : (afterCalls op n ms answers rest s).atMicro op (n + ms.length) := State.called_atMicro ..

theorem State.called_called (op : Op) (n j : Nat) (a b : BusAnswer) (l rest : List Move) (e events : List BusEvent)
    (s : State) : (s.called op n a l e).called op j b rest events = s.called op j b rest (e ++ events) := by
  simp [State.called]

/-- What an answer does to the working registers does not depend on where the sequencer and the agents stand. -/
theorem Micro.receive_called (op : Op) (n : Nat) (b : BusAnswer) (rest : List Move) (events : List BusEvent)
    (a : BusAnswer) (m : Micro) (s : State) :
    m.receive a (s.called op n b rest events) = (m.receive a s).called op n b rest events := by
  cases m with
  | read p dst next => cases dst <;> rfl
  | _ => rfl

theorem receiveAll_called (op : Op) (n : Nat) (b : BusAnswer) (rest : List Move) (events : List BusEvent)
    (ms : Listing) (answers : List BusAnswer) (s : State) :
    receiveAll ms answers (s.called op n b rest events) = (receiveAll ms answers s).called op n b rest events := by
  induction ms generalizing s answers with
  | nil => cases answers <;> rfl
  | cons m ms ih =>
    cases answers with
    | nil => rfl
    | cons a answers => simp only [receiveAll, Micro.receive_called, ih]

theorem Micro.receive_opnd (a : BusAnswer) (m : Micro) (s : State) : (m.receive a s).opnd = s.opnd := by
  cases m with
  | read p dst next => cases dst <;> rfl
  | _ => rfl

/-- Of the state, a call depends on the operand byte alone (R82). -/
theorem Micro.call_congr {s t : State} (h : t.opnd = s.opnd) (m : Micro) : m.call t = m.call s := by
  cases m with
  | writeAcc b next => cases b <;> simp [Micro.call, SendByte.value, h]
  | _ => rfl

theorem callEvents_congr {s t : State} (h : t.opnd = s.opnd) (ms : Listing) (answers : List BusAnswer) :
    callEvents t ms answers = callEvents s ms answers := by
  simp only [callEvents, Micro.call_congr h]

theorem Micro.busCallTo_call {m : Micro} {j : Nat} (hb : m.busCallTo j = true) (s : State) :
    ∃ c, m.call s = some c ∧ ∀ d, c ≠ .delay d := by
  cases m with
  | attempt data wait skip => cases hb
  | delay d next => cases hb
  | commit what => cases hb
  | _ => exact ⟨_, rfl, nofun⟩

/-- The bus agent's answer to a straight micro-step's call. -/
theorem answer_busCallTo {op : Op} {m : Micro} {j : Nat} (hb : m.busCallTo j = true) (c : Call) (a : BusAnswer)
    (rest : List Move) (s : State) :
    answer op m c { s with moves := rest, busIn := a } = (m.receive a s).called op j a rest [c.event a] := by
  cases m with
  | attempt data wait skip => cases hb
  | delay d next => cases hb
  | commit what => cases hb
  | busBegin next => rw [← show next = j from beq_iff_eq.1 hb]; rfl
  | busEnd next => rw [← show next = j from beq_iff_eq.1 hb]; rfl
  | writeAcc b next => rw [← show next = j from beq_iff_eq.1 hb]; rfl
  | read p dst next => rw [← show next = j from beq_iff_eq.1 hb]; cases dst <;> rfl

/-- A bus call takes two steps, its issue and its answer (R104, R108). -/
theorem run_call {op : Op} {n : Nat} {m : Micro} {c : Call} {a : BusAnswer} {rest : List Move} {s : State}
    (hat : s.atMicro op n) (hm : (listingOf op)[n]? = some m) (hc : m.call s = some c) (hd : ∀ d, c ≠ .delay d)
    (hmoves : s.moves = .sequencer :: .bus a :: rest) (k : Nat) :
    Sys2Proof.core.run (k + 2) s = Sys2Proof.core.run k (answer op m c { s with moves := rest, busIn := a }) := by
  obtain ⟨hs, hr⟩ := hat
  have hnc : ∀ what, m ≠ .commit what := by rintro what rfl; cases hc
  let u : State := { s with moves := .bus a :: rest, req := some c }
  have hissue : step s = .next u := by
    obtain ⟨c', hc', hexec⟩ := sequencerIssuesTheListedCall op n m { s with moves := .bus a :: rest } ⟨hs, hr⟩ hm hnc
    obtain rfl : c' = c := Option.some.inj (hc'.symm.trans ((Micro.call_congr rfl m).trans hc))
    exact ((stepRunsTheRunningCommand s op n hs).1 _ hmoves hr).trans hexec
  have hbus : u.busPending = true := by
    cases c with
    | delay d => exact absurd rfl (hd d)
    | _ => rfl
  have hanswer : step u = .next (answer op m c { s with moves := rest, busIn := a }) :=
    ((stepRunsTheRunningCommand u op n hs).2.1 a rest rfl hbus).trans
      (exec_waits (s := { u with moves := rest, busIn := a }) ⟨hs, rfl⟩ hm)
  rw [run_succ hissue, run_succ hanswer]

/-- A row of bus calls takes two steps a call, and brings the sequencer to the micro-step after it. -/
theorem run_calls {op : Op} {ms tail : Listing} {answers : List BusAnswer} {rest : List Move} {n : Nat} {s : State}
    (hat : s.atMicro op n) (hl : (listingOf op).drop n = ms ++ tail) (hst : straightCalls n ms = true)
    (hlen : answers.length = ms.length) (hmoves : s.moves = callMoves answers ++ rest) (k : Nat) :
    Sys2Proof.core.run (k + 2 * ms.length) s = Sys2Proof.core.run k (afterCalls op n ms answers rest s) := by
  induction ms generalizing n s answers with
  | nil =>
    obtain rfl := List.eq_nil_of_length_eq_zero hlen
    obtain ⟨hs, hr⟩ := hat
    obtain rfl : s.moves = rest := hmoves
    have hsame : s.called op n s.busIn s.moves [] = s := by simp [State.called, ← hs, ← hr]
    exact congrArg _ hsame.symm
  | cons m ms ih =>
    obtain ⟨a, answers, rfl⟩ := List.exists_cons_of_length_eq_add_one hlen
    obtain ⟨hb, htail⟩ := Bool.and_eq_true_iff.1 hst
    obtain ⟨c, hc, hd⟩ := Micro.busCallTo_call hb s
    have hm : (listingOf op)[n]? = some m := by
      rw [← Nat.add_zero n, ← List.getElem?_drop, hl]
      rfl
    have hl' : (listingOf op).drop (n + 1) = ms ++ tail := by
      rw [← List.drop_drop, hl]
      rfl
    let t := (m.receive a s).called op (n + 1) a (callMoves answers ++ rest) [c.event a]
    have hevents : callEvents s (m :: ms) (a :: answers) = [c.event a] ++ callEvents t ms answers := by
      rw [callEvents_congr (s := s) (t := t) (Micro.receive_opnd a m s)]
      simp [callEvents, hc]
    calc Sys2Proof.core.run (k + 2 * ms.length + 2) s
        = Sys2Proof.core.run (k + 2 * ms.length) t :=
          (run_call hat hm hc hd hmoves _).trans (congrArg _ (answer_busCallTo hb c a _ s))
      _ = Sys2Proof.core.run k (afterCalls op (n + 1) ms answers rest t) :=
          ih (State.called_atMicro ..) hl' htail (Nat.succ.inj hlen) rfl
      _ = Sys2Proof.core.run k (afterCalls op n (m :: ms) (a :: answers) rest s) := by
          rw [afterCalls, afterCalls, receiveAll_called, State.called_called, ← hevents, Nat.add_right_comm,
            Nat.add_assoc, List.getLastD_cons]
          rfl

/-- The step at the host's write of a legal word to CMD is the acceptance (R100). -/
theorem run_issued {s : State} {w : Word} {i : Instr} {lines : List HostLine} {moves : List Move} (hs : s.seq = .idle)
    (hp : s.prog = .hw haddrCmd w :: lines) (hd : decode w = .legal i) (hmoves : s.moves = .host :: moves) (k : Nat) :
    Sys2Proof.core.run (k + 1) s = Sys2Proof.core.run k (accept i { s with prog := lines, moves := moves }) := by
  have hissues : s.issues w lines := ⟨by simp [State.hostMovesNext, hmoves], hp⟩
  have hstep := stepRunsTheIssuedCommand s w lines i hs hissues hd
  rw [hmoves] at hstep
  exact run_succ (hstep.trans (everyCommandIsAcceptedWhenIdle i { s with prog := lines, moves := moves } hs)) k

/-- The sequencer's step with nothing pending is `exec` of the running command (R104). -/
theorem run_sequencer {i : Instr} {n : Nat} {rest : List Move} {s : State} (hat : s.atMicro (opOf i) n)
    (hmoves : s.moves = .sequencer :: rest) (hn : n < (listingOf (opOf i)).length) :
    Sys2Proof.core.run 1 s = exec i { s with moves := rest } := by
  obtain ⟨hs, hr⟩ := hat
  obtain ⟨t, ht⟩ := microStep_next (op := opOf i) { s with moves := rest } hn
  have hstep := (stepRunsTheRunningCommand s (opOf i) n hs).1 rest hmoves hr
  have hinstr := exec_running (s := { s with moves := rest }) hs s.opnd
  have hexec := exec_at (s := { s with moves := rest }) hs
  exact (run_succ (hstep.trans (hinstr.trans ht)) 0).trans (hexec.trans ht).symm

/-- A command whose listing opens with a row of bus calls, from the write to CMD to the step after the row, which is
`exec` of that command. -/
theorem run_command {s : State} {w : Word} {i : Instr} {lines : List HostLine} {rest : List Move} {ms tail : Listing}
    {m : Micro} {answers : List BusAnswer} (hs : s.seq = .idle) (hr : s.req = none)
    (hp : s.prog = .hw haddrCmd w :: lines) (hd : decode w = .legal i)
    (hmoves : s.moves = .host :: (callMoves answers ++ .sequencer :: rest))
    (hl : listingOf (opOf i) = ms ++ m :: tail) (hst : straightCalls 0 ms = true) (hlen : answers.length = ms.length) :
    Sys2Proof.core.run (1 + 2 * ms.length + 1) s = exec i
      (afterCalls (opOf i) 0 ms answers rest (accept i { s with prog := lines, moves := s.moves.tail })) := by
  have hn : 0 + ms.length < (listingOf (opOf i)).length := by simp [hl]
  have htail : s.moves.tail = callMoves answers ++ .sequencer :: rest := congrArg List.tail hmoves
  let u : State := accept i { s with prog := lines, moves := s.moves.tail }
  have hissued : Sys2Proof.core.run (1 + 2 * ms.length + 1) s = Sys2Proof.core.run (1 + 2 * ms.length) u :=
    run_issued hs hp hd (hmoves.trans (congrArg _ htail.symm)) _
  have hcalls : Sys2Proof.core.run (1 + 2 * ms.length) u =
      Sys2Proof.core.run 1 (afterCalls (opOf i) 0 ms answers (.sequencer :: rest) u) :=
    run_calls (s := u) (n := 0) ⟨rfl, hr⟩ hl hst hlen htail 1
  exact hissued.trans (hcalls.trans (run_sequencer (afterCalls_atMicro ..) rfl hn))

end Sys2Proof.Machine

/-! # Whole runs of UREG.RD and UREG.WR -/

namespace Sys2Proof.Machine

/-- What the answers of UREG.RD's eight calls leave in the working registers (R140). -/
theorem receiveAll_uregRd (a0 a1 a2 a3 a4 a5 a6 a7 : BusAnswer) (s : State) :
    receiveAll uregRdListing.dropLast [a0, a1, a2, a3, a4, a5, a6, a7] s = { s with
      acc := s.acc ||| respFlags s.params a1.resp ||| respFlags s.params a2.resp ||| respFlags s.params a4.resp,
      d0 := a5.byte, c := a6.byte } := by
  simp [uregRdListing, receiveAll, Micro.receive, State.accumulate, State.store]

/-- What the answers of UREG.WR's five calls leave in the working registers (R143). -/
theorem receiveAll_uregWr (a0 a1 a2 a3 a4 : BusAnswer) (s : State) :
    receiveAll uregWrListing.dropLast [a0, a1, a2, a3, a4] s = { s with
      acc := s.acc ||| respFlags s.params a1.resp ||| respFlags s.params a2.resp ||| respFlags s.params a3.resp } := by
  simp [uregWrListing, receiveAll, Micro.receive, State.accumulate]

/-- Settles O35: eight bus calls run straight to the Commit that validates and publishes the byte of the first read; acc
starts from 0 (R100). -/
theorem uregRdRunsItsListing : Obligations.UregRdRunsItsListing := by
  unfold Obligations.UregRdRunsItsListing
  intro s w imm8 lines rest a0 a1 a2 a3 a4 a5 a6 a7 hs hr hp hd hm
  have hrun := run_command (ms := uregRdListing.dropLast) hs hr hp hd hm rfl rfl rfl
  refine hrun.trans ((uregRdCommitPublishesTheByte imm8 _ (afterCalls_atMicro ..)).trans ?_)
  rw [afterCalls, receiveAll_uregRd, hs, hr, ← BitVec.zero_or (x := respFlags s.params a1.resp)]
  rfl

/-- Settles O36: five bus calls, the fourth of them the operand's, run straight to the Commit that publishes ERR alone. -/
theorem uregWrRunsItsListing : Obligations.UregWrRunsItsListing := by
  unfold Obligations.UregWrRunsItsListing
  intro s w v lines rest a0 a1 a2 a3 a4 hs hr hp hd hm
  have hrun := run_command (ms := uregWrListing.dropLast) hs hr hp hd hm rfl rfl rfl
  refine hrun.trans (((uregWrAndSrstCommitPublishOnlyErr v _).1 (afterCalls_atMicro ..)).trans ?_)
  rw [afterCalls, receiveAll_uregWr, hs, hr, ← BitVec.zero_or (x := respFlags s.params a1.resp)]
  rfl

end Sys2Proof.Machine

/-! # Measurement: the converter's mask, the polling attempt, the timeout flag, and the hold-master run -/

namespace Sys2Proof.Machine

/-- Settles O46: the mask keeps the bits above the low 2, so raw measurands that agree there have one masked value. -/
theorem statusBitsDoNotChangeTheValue : Obligations.StatusBitsDoNotChangeTheValue := by
  unfold Obligations.StatusBitsDoNotChangeTheValue
  refine ⟨fun raw => ⟨rfl, maskStatus_mod_four raw, maskStatus_le raw⟩, fun kind x y h => ?_⟩
  rw [maskStatus_eq x, maskStatus_eq y, h]

/-- Settles O47: both words hold their numerators exactly, and the constants cancel in the difference. -/
theorem conversionIsLinear : Obligations.ConversionIsLinear := by
  unfold Obligations.ConversionIsLinear
  intro x y
  have hx := maskStatus_le x
  have hy := maskStatus_le y
  rw [convert_rh_toInt hx, convert_rh_toInt hy, convert_t_toInt hx, convert_t_toInt hy]
  constructor <;> ring

theorem opOf_pollCommand_polls (kind : Kind) (b : Byte) : (opOf (pollCommand kind b)).polls = true := by
  cases kind <;> rfl

/-- ATTEMPTS as the host reads it (R34). -/
theorem hostRead_attempts (s : State) : s.hostRead 11 = s.attempts.setWidth 32 := rfl

/-- Settles O59: validation does not touch ERR_TIMEOUT, so the Commit publishes acc's, which the invariant of the
polling loop ties to the last attempt and the budget. -/
theorem timeoutFlagMeansTheBudgetIsSpent : Obligations.TimeoutFlagMeansTheBudgetIsSpent := by
  unfold Obligations.TimeoutFlagMeansTheBudgetIsSpent
  intro kind imm8 n s t hinv hc hs hexec hidle
  rw [exec_at hs] at hexec
  obtain ⟨what, hm, -, rfl⟩ := microStep_idle hs hexec hidle
  obtain ⟨-, htimeout⟩ := hinv.poll_run hs (opOf_pollCommand_polls kind imm8)
  constructor
  · rw [commit_err_timeout, htimeout hc, Bool.and_eq_true, Bool.not_eq_true', decide_eq_true_iff, pollBudget]
  · intro herr
    have hattempts : (commit what s).attempts = 200#8 :=
      BitVec.eq_of_toNat_eq (commit_timeout hinv hs hm hc herr)
    rw [hostRead_attempts, hattempts]
    rfl

theorem pollCommand_listing (kind : Kind) (b : Byte) : listingOf (opOf (pollCommand kind b)) = pollListing kind := by
  cases kind <;> rfl

theorem holdCommand_listing (kind : Kind) (b : Byte) : listingOf (opOf (holdCommand kind b)) = holdListing kind := by
  cases kind <;> rfl

/-- What the answer `r` to a polling attempt does to the working registers (R152 s4, R157). -/
def attempted (r : WriteResp) (s : State) : State := { s with
  k := s.k + 1, ready := decide (r = .ack),
  acc := if r = .ack ∨ (s.k + 1).toNat < pollBudget then s.acc else s.acc ||| errBit .timeout }

/-- The micro-step after an attempt in `s` that the answer `r` ends: the reads, the wait, or the end (R152 s4, R158). -/
def attemptNext (r : WriteResp) (s : State) : Nat :=
  if r = .ack then 6 else if (s.k + 1).toNat < pollBudget then 5
  else if s.params.timeoutReads = .continue then 6 else 10

theorem afterAttempt_countAttempt (op : Op) (r : WriteResp) (s : State) :
    afterAttempt 6 5 10 op (countAttempt r s) = (attempted r s).goto op (attemptNext r s) := by
  by_cases hack : r = .ack
  · simp [afterAttempt, countAttempt, attempted, attemptNext, State.goto, hack]
  by_cases hlt : (s.k + 1).toNat < pollBudget
  · simp only [afterAttempt, countAttempt, attempted, attemptNext, hack, hlt, decide_false, or_true, if_true]
    rfl
  cases hp : s.params.timeoutReads <;>
    simp only [afterAttempt, countAttempt, attempted, attemptNext, hack, hlt, hp, decide_false, or_self, if_false,
      if_true, reduceCtorEq] <;> rfl

/-- Settles O26: the answer counts the attempt, and the branch reads the count and the answer. -/
theorem pollingAttemptBranches : Obligations.PollingAttemptBranches := by
  unfold Obligations.PollingAttemptBranches
  intro kind imm8 sent s ⟨hs, hc⟩
  have hexec : exec (pollCommand kind imm8) s =
      .next (answer (opOf (pollCommand kind imm8)) (.attempt 6 5 10) (.write sent) s) := by
    simp [exec_at hs, microStep, pollCommand_listing, pollListing, hc]
  rw [hexec, answer, deliver, afterAttempt_countAttempt]
  rfl

/-- What the answers of the hold-master listing's nine calls leave in the working registers (R166). -/
theorem receiveAll_hold (kind : Kind) (a0 a1 a2 a3 a4 a5 a6 a7 a8 : BusAnswer) (s : State) :
    receiveAll (holdListing kind).dropLast [a0, a1, a2, a3, a4, a5, a6, a7, a8] s = { s with
      acc := s.acc ||| respFlags s.params a1.resp ||| respFlags s.params a2.resp ||| respFlags s.params a4.resp,
      d0 := a5.byte, d1 := a6.byte, c := a7.byte } := by
  simp [holdListing, receiveAll, Micro.receive, State.accumulate, State.store]

/-- The Commit of a hold-master measurement (R166 s9). -/
theorem exec_held {kind : Kind} {b : Byte} {s : State} (h : s.atMicro (opOf (holdCommand kind b)) 9) :
    exec (holdCommand kind b) s = .next (publish (writeMeasurement kind (validated [s.d0, s.d1] s))) := by
  obtain ⟨hs, hr⟩ := h
  rw [exec_commit hs hr (holdCommand_commit kind b), commit_held]

/-- Settles O38: nine bus calls run straight to the Commit that validates both bytes and publishes them for its kind. -/
theorem holdMeasurementRunsItsListing : Obligations.HoldMeasurementRunsItsListing := by
  unfold Obligations.HoldMeasurementRunsItsListing
  intro kind s w imm8 lines rest a0 a1 a2 a3 a4 a5 a6 a7 a8 hs hr hp hd hm
  have hrun := run_command (ms := (holdListing kind).dropLast) hs hr hp hd hm (holdCommand_listing kind imm8) rfl rfl
  refine hrun.trans ((exec_held (afterCalls_atMicro ..)).trans ?_)
  rw [afterCalls, receiveAll_hold, validated, hs, hr, ← BitVec.zero_or (x := respFlags s.params a1.resp)]
  simp only [ne_eq, ite_not]
  cases kind <;> rfl

end Sys2Proof.Machine

/-! # The polled measurement, from the write to CMD to its Commit

The trigger phase is a row of bus calls, each failed attempt takes six steps back to micro-step 3, and the last attempt
leads to the reads or, with SKIP, to the end. -/

namespace Sys2Proof.Machine

/-- A bus call that its listing sends to micro-step `j` whatever the answer, in two steps (R104, R108). -/
theorem run_busCallTo {op : Op} {n j : Nat} {m : Micro} {c : Call} {a : BusAnswer} {rest : List Move} {s : State}
    (hat : s.atMicro op n) (hm : (listingOf op)[n]? = some m) (hb : m.busCallTo j = true) (hc : m.call s = some c)
    (hmoves : s.moves = .sequencer :: .bus a :: rest) (k : Nat) :
    Sys2Proof.core.run (k + 2) s = Sys2Proof.core.run k ((m.receive a s).called op j a rest [c.event a]) := by
  obtain ⟨c', hc', hd⟩ := Micro.busCallTo_call hb s
  obtain rfl : c' = c := Option.some.inj (hc'.symm.trans hc)
  exact (run_call hat hm hc hd hmoves k).trans (congrArg _ (answer_busCallTo hb c' a rest s))

/-- A delay takes two steps, its issue and its completion by the timer (R112). -/
theorem run_delay {op : Op} {n next : Nat} {d : DelayName} {rest : List Move} {s : State} (hat : s.atMicro op n)
    (hm : (listingOf op)[n]? = some (.delay d next)) (hmoves : s.moves = .sequencer :: .timer :: rest) (k : Nat) :
    Sys2Proof.core.run (k + 2) s = Sys2Proof.core.run k (s.called op next s.busIn rest [.delay d]) := by
  obtain ⟨hs, hr⟩ := hat
  let u : State := { s with moves := .timer :: rest, req := some (.delay d) }
  have hissue : step s = .next u := by
    obtain ⟨c, hc, hexec⟩ :=
      sequencerIssuesTheListedCall op n _ { s with moves := .timer :: rest } ⟨hs, hr⟩ hm nofun
    cases hc
    exact ((stepRunsTheRunningCommand s op n hs).1 _ hmoves hr).trans hexec
  have hdone : step u = .next (s.called op next s.busIn rest [.delay d]) := by
    obtain ⟨-, -, htimer, -⟩ := stepRunsTheRunningCommand u op n hs
    exact (htimer rest rfl rfl).trans (exec_waits (s := { u with moves := rest }) ⟨hs, rfl⟩ hm)
  rw [run_succ hissue, run_succ hdone]

/-- The sequencer's step at a Commit (R113). -/
theorem run_commit {i : Instr} {n : Nat} {what : Commit} {rest : List Move} {s : State} (hat : s.atMicro (opOf i) n)
    (hm : (listingOf (opOf i))[n]? = some (.commit what)) (hmoves : s.moves = .sequencer :: rest) :
    Sys2Proof.core.run 1 s = .next (commit what { s with moves := rest }) := by
  obtain ⟨hn, -⟩ := List.getElem?_eq_some_iff.1 hm
  obtain ⟨hs, hr⟩ := hat
  exact (run_sequencer ⟨hs, hr⟩ hmoves hn).trans (exec_commit (s := { s with moves := rest }) hs hr hm)

/-! ## The polling loop -/

theorem attempted_called (op : Op) (n : Nat) (a : BusAnswer) (rest : List Move) (events : List BusEvent)
    (r : WriteResp) (s : State) :
    attempted r (s.called op n a rest events) = (attempted r s).called op n a rest events := rfl

theorem attemptNext_called (op : Op) (n : Nat) (a : BusAnswer) (rest : List Move) (events : List BusEvent)
    (r : WriteResp) (s : State) : attemptNext r (s.called op n a rest events) = attemptNext r s := rfl

theorem attempted_ack (s : State) : attempted .ack s = { s with k := s.k + 1, ready := true } := by
  simp [attempted]

theorem attempted_retry {r : WriteResp} {s : State} (hr : r ≠ .ack) (hk : (s.k + 1).toNat < pollBudget) :
    attempted r s = { s with k := s.k + 1, ready := false } := by
  simp only [attempted, hr, hk, decide_false, or_true, if_true]

theorem attempted_timeout {r : WriteResp} {s : State} (hr : r ≠ .ack) (hk : ¬ (s.k + 1).toNat < pollBudget) :
    attempted r s = { s with k := s.k + 1, ready := false, acc := s.acc ||| errBit .timeout } := by
  simp only [attempted, hr, hk, decide_false, or_self, if_false]

theorem attemptNext_retry {r : WriteResp} {s : State} (hr : r ≠ .ack) (hk : (s.k + 1).toNat < pollBudget) :
    attemptNext r s = 5 :=
  (if_neg hr).trans (if_pos hk)

theorem attemptNext_timeout {r : WriteResp} {s : State} (hr : r ≠ .ack) (hk : ¬ (s.k + 1).toNat < pollBudget) :
    attemptNext r s = if s.params.timeoutReads = .continue then 6 else 10 :=
  (if_neg hr).trans (if_neg hk)

/-- `s` with the bytes of the three reads (R160). -/
def State.received (r0 r1 r2 : BusAnswer) (s : State) : State := { s with d0 := r0.byte, d1 := r1.byte, c := r2.byte }

theorem State.received_called (op : Op) (n : Nat) (a : BusAnswer) (rest : List Move) (events : List BusEvent)
    (r0 r1 r2 : BusAnswer) (s : State) :
    (s.called op n a rest events).received r0 r1 r2 = (s.received r0 r1 r2).called op n a rest events := rfl

/-- What failed attempts within the budget leave: each counted, each followed by a wait (R156). -/
def afterFailures (op : Op) (fails : List (BusAnswer × BusAnswer)) (rest : List Move) (s : State) : State :=
  { s with k := s.k + BitVec.ofNat 8 fails.length }.called op 3 ((fails.map Prod.snd).getLastD s.busIn) rest
    (fails.flatMap failedAttemptEvents)

theorem afterFailures_cons (op : Op) (p : BusAnswer × BusAnswer) (ps : List (BusAnswer × BusAnswer))
    (l rest : List Move) (s : State) :
    afterFailures op ps rest (afterFailures op [p] l s) = afterFailures op (p :: ps) rest s := by
  have hcount : s.k + BitVec.ofNat 8 1 + BitVec.ofNat 8 ps.length = s.k + BitVec.ofNat 8 (p :: ps).length := by
    rw [List.length_cons, Nat.add_comm, BitVec.ofNat_add, BitVec.add_assoc]
  have hlast : ((p :: ps).map Prod.snd).getLastD s.busIn = (ps.map Prod.snd).getLastD p.2 := List.getLastD_cons ..
  rw [afterFailures, afterFailures, afterFailures, hlast, ← hcount]
  simp [State.called]

section Loop

variable {op : Op} {kind : Kind} (hl : listingOf op = pollListing kind)

include hl

/-- A polling attempt takes four steps: its BusBegin and its BusWrite, each issued and answered (R152 s3, s4). -/
theorem run_attempt {b0 b1 : BusAnswer} {rest : List Move} {s : State} (hat : s.atMicro op 3)
    (hmoves : s.moves = callMoves [b0, b1] ++ rest) (k : Nat) :
    Sys2Proof.core.run (k + 4) s = Sys2Proof.core.run k
      ((attempted b1.resp s).called op (attemptNext b1.resp s) b1 rest [.busBegin, .write 0x81 b1.resp]) := by
  have hbegin : (listingOf op)[3]? = some (.busBegin 4) := by rw [hl]; rfl
  have hattempt : (listingOf op)[4]? = some (.attempt 6 5 10) := by rw [hl]; rfl
  let u : State := s.called op 4 b0 (callMoves [b1] ++ rest) [.busBegin]
  calc Sys2Proof.core.run (k + 4) s
      = Sys2Proof.core.run (k + 2) u := run_busCallTo hat hbegin rfl rfl hmoves (k + 2)
    _ = Sys2Proof.core.run k
          (answer op (.attempt 6 5 10) (.write sensorRaddr) { u with moves := rest, busIn := b1 }) :=
        run_call (State.called_atMicro ..) hattempt rfl nofun rfl k
    _ = _ := by
        rw [answer, deliver, afterAttempt_countAttempt]
        simp [u, State.called, State.goto, attempted, attemptNext, record, Call.event, sensorRaddr]

/-- A failed attempt within the budget and the wait after it take six steps back to micro-step 3 (R156). -/
theorem run_failedAttempt {p : BusAnswer × BusAnswer} {rest : List Move} {s : State} (hat : s.atMicro op 3)
    (hready : s.ready = false) (hk : (s.k + 1).toNat < pollBudget) (hfail : p.2.resp ≠ .ack)
    (hmoves : s.moves = failedAttemptMoves p ++ rest) (k : Nat) :
    Sys2Proof.core.run (k + 6) s = Sys2Proof.core.run k (afterFailures op [p] rest s) := by
  have hdelay : (listingOf op)[5]? = some (.delay .pollInterval 3) := by rw [hl]; rfl
  calc Sys2Proof.core.run (k + 6) s
      = Sys2Proof.core.run (k + 2) ({ s with k := s.k + 1 }.called op 5 p.2 (.sequencer :: .timer :: rest)
          [.busBegin, .write 0x81 p.2.resp]) := by
        rw [run_attempt hl (b0 := p.1) (b1 := p.2) (rest := .sequencer :: .timer :: rest) hat hmoves (k + 2),
          attempted_retry hfail hk, attemptNext_retry hfail hk, ← hready]
    _ = Sys2Proof.core.run k (afterFailures op [p] rest s) := by
        rw [run_delay (State.called_atMicro ..) hdelay rfl, State.called_called]
        rfl

/-- Any number of failed attempts within the budget take six steps each (R156). -/
theorem run_failedAttempts {fails : List (BusAnswer × BusAnswer)} {rest : List Move} {s : State}
    (hat : s.atMicro op 3) (hready : s.ready = false) (hk : s.k.toNat + fails.length < pollBudget)
    (hfail : ∀ p ∈ fails, p.2.resp ≠ .ack) (hmoves : s.moves = fails.flatMap failedAttemptMoves ++ rest) (k : Nat) :
    Sys2Proof.core.run (k + 6 * fails.length) s = Sys2Proof.core.run k (afterFailures op fails rest s) := by
  induction fails generalizing s with
  | nil =>
    obtain ⟨hs, hr⟩ := hat
    obtain rfl : s.moves = rest := hmoves
    have hsame : afterFailures op [] s.moves s = s := by simp [afterFailures, State.called, ← hs, ← hr]
    exact congrArg _ hsame.symm
  | cons p ps ih =>
    obtain ⟨hp, hps⟩ := List.forall_mem_cons.1 hfail
    rw [List.length_cons] at hk
    have hcount : (s.k + 1).toNat = s.k.toNat + 1 := countAttempt_k_toNat p.2.resp (by omega)
    have hmoves' : s.moves = failedAttemptMoves p ++ (ps.flatMap failedAttemptMoves ++ rest) := by
      rw [hmoves, List.flatMap_cons, List.append_assoc]
    let t : State := afterFailures op [p] (ps.flatMap failedAttemptMoves ++ rest) s
    have ht : t.k.toNat + ps.length < pollBudget := by
      have hkt : t.k.toNat = s.k.toNat + 1 := hcount
      omega
    calc Sys2Proof.core.run (k + 6 * (ps.length + 1)) s
        = Sys2Proof.core.run (k + 6 * ps.length) t :=
          run_failedAttempt hl hat hready (by omega) hp hmoves' _
      _ = Sys2Proof.core.run k (afterFailures op ps rest t) :=
          ih (State.called_atMicro ..) hready ht hps rfl
      _ = Sys2Proof.core.run k (afterFailures op (p :: ps) rest s) := congrArg _ (afterFailures_cons ..)

end Loop

section Finish

variable {i : Instr} {kind : Kind} (hl : listingOf (opOf i) = pollListing kind)

include hl

/-- The reads of a polled measurement, the BusEnd after them, and its Commit (R152 s6 to s9, s11). -/
theorem run_reads {r0 r1 r2 e : BusAnswer} {rest : List Move} {s : State} (hat : s.atMicro (opOf i) 6)
    (hmoves : s.moves = callMoves [r0, r1, r2, e] ++ .sequencer :: rest) :
    Sys2Proof.core.run 9 s = .next (commit (.polled kind) ((s.received r0 r1 r2).called (opOf i) 11 e rest
      [.read .ack r0.byte, .read .ack r1.byte, .read .nack r2.byte, .busEnd])) := by
  have hreads : (listingOf (opOf i)).drop 6 = [.read .ack .d0 7, .read .ack .d1 8, .read .nack .c 9] ++
      [.busEnd 11, .busEnd 12, .commit (.polled kind), .commit .attemptsOnly] := by rw [hl]; rfl
  have hend : (listingOf (opOf i))[9]? = some (.busEnd 11) := by rw [hl]; rfl
  have hcommit : (listingOf (opOf i))[11]? = some (.commit (.polled kind)) := by rw [hl]; rfl
  calc Sys2Proof.core.run 9 s
      = Sys2Proof.core.run 3 ((s.received r0 r1 r2).called (opOf i) 9 r2 (callMoves [e] ++ .sequencer :: rest)
          [.read .ack r0.byte, .read .ack r1.byte, .read .nack r2.byte]) :=
        run_calls hat hreads rfl (answers := [r0, r1, r2]) rfl hmoves 3
    _ = Sys2Proof.core.run 1 ((s.received r0 r1 r2).called (opOf i) 11 e (.sequencer :: rest)
          [.read .ack r0.byte, .read .ack r1.byte, .read .nack r2.byte, .busEnd]) :=
        (run_busCallTo (State.called_atMicro ..) hend rfl rfl rfl 1).trans (congrArg _ (State.called_called ..))
    _ = _ := run_commit (State.called_atMicro ..) hcommit rfl

/-- After a timeout with SKIP: the BusEnd and the Commit that writes ATTEMPTS alone (R152 s10, s12). -/
theorem run_skip {e : BusAnswer} {rest : List Move} {s : State} (hat : s.atMicro (opOf i) 10)
    (hmoves : s.moves = callMoves [e] ++ .sequencer :: rest) :
    Sys2Proof.core.run 3 s = .next (commit .attemptsOnly (s.called (opOf i) 12 e rest [.busEnd])) := by
  have hend : (listingOf (opOf i))[10]? = some (.busEnd 12) := by rw [hl]; rfl
  have hcommit : (listingOf (opOf i))[12]? = some (.commit .attemptsOnly) := by rw [hl]; rfl
  exact (run_busCallTo hat hend rfl rfl hmoves 1).trans (run_commit (State.called_atMicro ..) hcommit rfl)

end Finish

/-! ## Whole polled measurements -/

/-- `s` after the trigger phase of a polled measurement and failed attempts `fails`, as far as the registers and the
host's lines go (R100, R152 s0 to s2, R156). -/
def State.polling (kind : Kind) (imm8 : Byte) (lines : List HostLine) (a1 a2 : BusAnswer)
    (fails : List (BusAnswer × BusAnswer)) (s : State) : State := { s with
  prog := lines, lastOp := opcodeOf (pollCommand kind imm8), opnd := imm8, ready := false,
  acc := respFlags s.params a1.resp ||| respFlags s.params a2.resp, k := BitVec.ofNat 8 fails.length }

/-- What the trigger phase and the failed attempts leave in the trace (R117). -/
def pollingEvents (kind : Kind) (a1 a2 : BusAnswer) (fails : List (BusAnswer × BusAnswer)) : List BusEvent :=
  [.busBegin, .write 0x80 a1.resp, .write (trigPoll kind) a2.resp] ++ fails.flatMap failedAttemptEvents

theorem append_pollingEvents (trace events : List BusEvent) (kind : Kind) (a1 a2 : BusAnswer)
    (fails : List (BusAnswer × BusAnswer)) :
    trace ++ (pollingEvents kind a1 a2 fails ++ events) =
      trace ++ [.busBegin, .write 0x80 a1.resp, .write (trigPoll kind) a2.resp] ++
        fails.flatMap failedAttemptEvents ++ events := by
  simp only [pollingEvents, List.append_assoc]

/-- What the answers of the trigger phase leave in the working registers (R152 s0 to s2). -/
theorem receiveAll_trigger (kind : Kind) (a0 a1 a2 : BusAnswer) (s : State) :
    receiveAll ((pollListing kind).take 3) [a0, a1, a2] s = { s with
      acc := s.acc ||| respFlags s.params a1.resp ||| respFlags s.params a2.resp } := by
  simp [pollListing, receiveAll, Micro.receive, State.accumulate]

theorem imm8Of_pollCommand (kind : Kind) (b : Byte) : imm8Of (pollCommand kind b) = b := by
  cases kind <;> rfl

/-- The trigger phase of an accepted polled measurement leaves it before its first attempt; acc starts from 0 (R100). -/
theorem afterCalls_trigger (op : Op) (kind : Kind) (imm8 : Byte) (lines : List HostLine) (a0 a1 a2 : BusAnswer)
    (l rest : List Move) (s : State) :
    afterCalls op 0 ((pollListing kind).take 3) [a0, a1, a2] rest
        (accept (pollCommand kind imm8) { s with prog := lines, moves := l }) =
      (s.polling kind imm8 lines a1 a2 []).called op 3 a2 rest (pollingEvents kind a1 a2 []) := by
  rw [State.polling, ← BitVec.zero_or (x := respFlags s.params a1.resp), afterCalls, receiveAll_trigger, accept,
    imm8Of_pollCommand]
  rfl

/-- Failed attempts after the trigger phase only count and leave their events. -/
theorem afterFailures_polling (op : Op) (kind : Kind) (imm8 : Byte) (lines : List HostLine) (a1 a2 : BusAnswer)
    (fails : List (BusAnswer × BusAnswer)) (l rest : List Move) (s : State) :
    afterFailures op fails rest
        ((s.polling kind imm8 lines a1 a2 []).called op 3 a2 l (pollingEvents kind a1 a2 [])) =
      (s.polling kind imm8 lines a1 a2 fails).called op 3 ((fails.map Prod.snd).getLastD a2) rest
        (pollingEvents kind a1 a2 fails) := by
  simp [afterFailures, State.called, State.polling, pollingEvents]

section Run

variable {kind : Kind} {s : State} {w : Word} {imm8 : Byte} {lines : List HostLine} {rest : List Move}
  {fails : List (BusAnswer × BusAnswer)} {a0 a1 a2 b0 b1 : BusAnswer} (hs : s.seq = .idle) (hr : s.req = none)
  (hp : s.prog = .hw haddrCmd w :: lines) (hd : decode w = .legal (pollCommand kind imm8))
  (hlen : fails.length < pollBudget) (hfail : ∀ p ∈ fails, p.2.resp ≠ .ack)

include hs hr hp hd hlen hfail

/-- From the write to CMD through the trigger phase and the failed attempts (R152 s0 to s5). -/
theorem run_polling
    (hmoves : s.moves = .host :: (callMoves [a0, a1, a2] ++ (fails.flatMap failedAttemptMoves ++ rest))) (k : Nat) :
    Sys2Proof.core.run (k + 6 * fails.length + 6 + 1) s = Sys2Proof.core.run k
      ((s.polling kind imm8 lines a1 a2 fails).called (opOf (pollCommand kind imm8)) 3
        ((fails.map Prod.snd).getLastD a2) rest (pollingEvents kind a1 a2 fails)) := by
  have hl := pollCommand_listing kind imm8
  have htrigger : (listingOf (opOf (pollCommand kind imm8))).drop 0 =
      (pollListing kind).take 3 ++ (pollListing kind).drop 3 := by rw [hl]; rfl
  let u : State := accept (pollCommand kind imm8) { s with prog := lines, moves := s.moves.tail }
  let v : State := (s.polling kind imm8 lines a1 a2 []).called (opOf (pollCommand kind imm8)) 3 a2
    (fails.flatMap failedAttemptMoves ++ rest) (pollingEvents kind a1 a2 [])
  have hk : v.k.toNat = 0 := rfl
  have htail : s.moves.tail = callMoves [a0, a1, a2] ++ (fails.flatMap failedAttemptMoves ++ rest) :=
    congrArg List.tail hmoves
  calc Sys2Proof.core.run (k + 6 * fails.length + 6 + 1) s
      = Sys2Proof.core.run (k + 6 * fails.length + 6) u :=
        run_issued hs hp hd (hmoves.trans (congrArg _ htail.symm)) _
    _ = Sys2Proof.core.run (k + 6 * fails.length) v :=
        (run_calls (s := u) ⟨rfl, hr⟩ htrigger rfl rfl htail _).trans (congrArg _ (afterCalls_trigger ..))
    _ = Sys2Proof.core.run k (afterFailures (opOf (pollCommand kind imm8)) fails rest v) :=
        run_failedAttempts hl (State.called_atMicro ..) rfl (by rwa [hk, Nat.zero_add]) hfail rfl k
    _ = _ := congrArg _ (afterFailures_polling ..)

/-- From the write to CMD through the last polling attempt, acknowledged or not (R152 s0 to s5). -/
theorem run_attempts
    (hmoves : s.moves = .host :: (callMoves [a0, a1, a2] ++ (fails.flatMap failedAttemptMoves ++
      (callMoves [b0, b1] ++ rest)))) (k : Nat) :
    Sys2Proof.core.run (k + 4 + 6 * fails.length + 6 + 1) s = Sys2Proof.core.run k
      ((attempted b1.resp (s.polling kind imm8 lines a1 a2 fails)).called (opOf (pollCommand kind imm8))
        (attemptNext b1.resp (s.polling kind imm8 lines a1 a2 fails)) b1 rest
        (pollingEvents kind a1 a2 fails ++ [.busBegin, .write 0x81 b1.resp])) := by
  rw [run_polling hs hr hp hd hlen hfail hmoves (k + 4),
    run_attempt (pollCommand_listing kind imm8) (State.called_atMicro ..) rfl k, attempted_called, attemptNext_called,
    State.called_called]

/-- A polled measurement whose last attempt leads to the reads, by an ACK or by a timeout with CONTINUE (R152, R158). -/
theorem run_polledReads {r0 r1 r2 e : BusAnswer}
    (hnext : attemptNext b1.resp (s.polling kind imm8 lines a1 a2 fails) = 6)
    (hmoves : s.moves = .host :: (callMoves [a0, a1, a2] ++ fails.flatMap failedAttemptMoves ++
      callMoves [b0, b1, r0, r1, r2, e] ++ .sequencer :: rest)) :
    Sys2Proof.core.run (20 + 6 * fails.length) s = .next (commit (.polled kind)
      (((attempted b1.resp (s.polling kind imm8 lines a1 a2 fails)).received r0 r1 r2).called
        (opOf (pollCommand kind imm8)) 11 e rest
        (pollingEvents kind a1 a2 fails ++ [.busBegin, .write 0x81 b1.resp, .read .ack r0.byte, .read .ack r1.byte,
          .read .nack r2.byte, .busEnd]))) := by
  have hsplit : s.moves = .host :: (callMoves [a0, a1, a2] ++ (fails.flatMap failedAttemptMoves ++
      (callMoves [b0, b1] ++ (callMoves [r0, r1, r2, e] ++ .sequencer :: rest)))) := by
    rw [hmoves, List.append_assoc, List.append_assoc]
    rfl
  have hsteps : 20 + 6 * fails.length = 9 + 4 + 6 * fails.length + 6 + 1 := by omega
  rw [hsteps, run_attempts hs hr hp hd hlen hfail hsplit 9, hnext]
  refine (run_reads (pollCommand_listing kind imm8) (State.called_atMicro ..) rfl).trans ?_
  rw [State.received_called, State.called_called, List.append_assoc]
  rfl

end Run

/-- Settles O40: an acknowledged attempt leads to the reads, counted with the failures before it. -/
theorem polledMeasurementSucceeds : Obligations.PolledMeasurementSucceeds := by
  unfold Obligations.PolledMeasurementSucceeds
  intro kind s w imm8 lines rest fails a0 a1 a2 b0 b1 r0 r1 r2 e hs hr hp hd hlen hfail hack hm
  have hnext : attemptNext b1.resp (s.polling kind imm8 lines a1 a2 fails) = 6 := if_pos hack
  have hcount : BitVec.ofNat 8 (fails.length + 1) = BitVec.ofNat 8 fails.length + 1 := BitVec.ofNat_add ..
  refine (run_polledReads hs hr hp hd hlen hfail hnext hm).trans ?_
  rw [hack, attempted_ack, commit_polled, State.called, append_pollingEvents, validated, hs, hr, hcount]
  simp only [ne_eq, ite_not]
  cases kind <;> rfl

/-- After 199 failed attempts the next one spends the budget (R157). -/
theorem polling_budget_spent (kind : Kind) (imm8 : Byte) (lines : List HostLine) (a1 a2 : BusAnswer)
    {fails : List (BusAnswer × BusAnswer)} (hlen : fails.length = 199) (s : State) :
    (s.polling kind imm8 lines a1 a2 fails).k + 1 = 200#8 := by
  simp [State.polling, hlen]

/-- Settles O41: the 200th failure adds ERR_TIMEOUT, and with CONTINUE it leads to the reads. -/
theorem polledMeasurementTimesOutAndReads : Obligations.PolledMeasurementTimesOutAndReads := by
  unfold Obligations.PolledMeasurementTimesOutAndReads
  intro kind s w imm8 lines rest fails a0 a1 a2 b0 b1 r0 r1 r2 e hs hr hp hd hcontinue hlen hfail hnack hm
  have hcount := polling_budget_spent kind imm8 lines a1 a2 hlen s
  have hspent : ¬ ((s.polling kind imm8 lines a1 a2 fails).k + 1).toNat < pollBudget := by rw [hcount]; decide
  have hnext : attemptNext b1.resp (s.polling kind imm8 lines a1 a2 fails) = 6 :=
    (attemptNext_timeout hnack hspent).trans (if_pos hcontinue)
  have hrun := run_polledReads hs hr hp hd (by rw [hlen]; decide) hfail hnext hm
  rw [hlen] at hrun
  refine hrun.trans ?_
  rw [attempted_timeout hnack hspent, hcount, commit_polled, State.called, append_pollingEvents, validated, hs, hr]
  simp only [ne_eq, ite_not]
  cases kind <;> rfl

/-- Settles O42: the 200th failure adds ERR_TIMEOUT, and with SKIP it leads to the Commit that writes ATTEMPTS alone. -/
theorem polledMeasurementTimesOutAndSkips : Obligations.PolledMeasurementTimesOutAndSkips := by
  unfold Obligations.PolledMeasurementTimesOutAndSkips
  intro kind s w imm8 lines rest fails a0 a1 a2 b0 b1 e hs hr hp hd hskip hlen hfail hnack hm
  have hcount := polling_budget_spent kind imm8 lines a1 a2 hlen s
  have hspent : ¬ ((s.polling kind imm8 lines a1 a2 fails).k + 1).toNat < pollBudget := by rw [hcount]; decide
  have hnext : attemptNext b1.resp (s.polling kind imm8 lines a1 a2 fails) = 10 :=
    (attemptNext_timeout hnack hspent).trans (if_neg (by simp [State.polling, hskip]))
  have hsplit : s.moves = .host :: (callMoves [a0, a1, a2] ++ (fails.flatMap failedAttemptMoves ++
      (callMoves [b0, b1] ++ (callMoves [e] ++ .sequencer :: rest)))) := by
    rw [hm, List.append_assoc, List.append_assoc]
    rfl
  have hrun := run_attempts hs hr hp hd (by rw [hlen]; decide) hfail hsplit 3
  rw [hlen, hnext] at hrun
  refine hrun.trans ((run_skip (pollCommand_listing kind imm8) (State.called_atMicro ..) rfl).trans ?_)
  rw [State.called_called, List.append_assoc, attempted_timeout hnack hspent, hcount, State.called,
    append_pollingEvents, hs, hr]
  cases kind <;> rfl

end Sys2Proof.Machine

/-! # The whole run of SN.RD

Before its Commit stand two rows of bus calls, one for each bank (R181, R182); what the answers of each row leave is said
apart, and the second row starts from what the first has left. -/

namespace Sys2Proof.Machine

/-- A row of answers that is two rows one after the other. -/
theorem receiveAll_append {ms : Listing} {answers : List BusAnswer} (hlen : answers.length = ms.length) (ms' : Listing)
    (answers' : List BusAnswer) (s : State) :
    receiveAll (ms ++ ms') (answers ++ answers') s = receiveAll ms' answers' (receiveAll ms answers s) := by
  induction ms generalizing answers s with
  | nil =>
    obtain rfl := List.eq_nil_of_length_eq_zero hlen
    cases ms' <;> rfl
  | cons m ms ih =>
    obtain ⟨a, answers, rfl⟩ := List.exists_cons_of_length_eq_add_one hlen
    exact ih (Nat.succ.inj hlen) (m.receive a s)

/-- What the answers of the first bank's fifteen calls leave in the working registers: the first, third, fifth and seventh
bytes read go to positions 5, 4, 3 and 2 (R181). -/
theorem receiveAll_snBank1 (a0 a1 a2 a3 a4 a5 b0 b1 b2 b3 b4 b5 b6 b7 e : BusAnswer) (s : State) :
    receiveAll snBank1 [a0, a1, a2, a3, a4, a5, b0, b1, b2, b3, b4, b5, b6, b7, e] s = { s with
      acc := s.acc ||| respFlags s.params a1.resp ||| respFlags s.params a2.resp ||| respFlags s.params a3.resp |||
        respFlags s.params a5.resp,
      snT := { s.snT with b5 := b0.byte, b4 := b2.byte, b3 := b4.byte, b2 := b6.byte } } := by
  simp [snBank1, receiveAll, Micro.receive, State.accumulate, State.store, SnBytes.set]

/-- What the answers of the second bank's thirteen calls leave in the working registers: the first, second, fourth and
fifth bytes read go to positions 1, 0, 7 and 6 (R182). -/
theorem receiveAll_snBank2 (a0 a1 a2 a3 a4 a5 b0 b1 b2 b3 b4 b5 e : BusAnswer) (s : State) :
    receiveAll snBank2 [a0, a1, a2, a3, a4, a5, b0, b1, b2, b3, b4, b5, e] s = { s with
      acc := s.acc ||| respFlags s.params a1.resp ||| respFlags s.params a2.resp ||| respFlags s.params a3.resp |||
        respFlags s.params a5.resp,
      snT := { s.snT with b1 := b0.byte, b0 := b1.byte, b7 := b3.byte, b6 := b4.byte } } := by
  simp [snBank2, receiveAll, Micro.receive, State.accumulate, State.store, SnBytes.set]

/-- What the answers of SN.RD's twenty-eight calls leave in the working registers: between them the banks write all eight
positions, so nothing of the old sn_t is left, and acc gathers the write answers of both. -/
theorem receiveAll_snRd (a0 a1 a2 a3 a4 a5 b0 b1 b2 b3 b4 b5 b6 b7 e0 g0 g1 g2 g3 g4 g5 c0 c1 c2 c3 c4 c5 e1 : BusAnswer)
    (s : State) :
    receiveAll (snBank1 ++ snBank2) [a0, a1, a2, a3, a4, a5, b0, b1, b2, b3, b4, b5, b6, b7, e0,
      g0, g1, g2, g3, g4, g5, c0, c1, c2, c3, c4, c5, e1] s = { s with
      acc := s.acc ||| respFlags s.params a1.resp ||| respFlags s.params a2.resp ||| respFlags s.params a3.resp |||
        respFlags s.params a5.resp ||| respFlags s.params g1.resp ||| respFlags s.params g2.resp |||
        respFlags s.params g3.resp ||| respFlags s.params g5.resp,
      snT := {
        b5 := b0.byte, b4 := b2.byte, b3 := b4.byte, b2 := b6.byte,
        b1 := c0.byte, b0 := c1.byte, b7 := c3.byte, b6 := c4.byte } } := by
  have hbanks := receiveAll_append (ms := snBank1)
    (answers := [a0, a1, a2, a3, a4, a5, b0, b1, b2, b3, b4, b5, b6, b7, e0]) rfl snBank2
    [g0, g1, g2, g3, g4, g5, c0, c1, c2, c3, c4, c5, e1] s
  rwa [receiveAll_snBank1, receiveAll_snBank2] at hbanks

/-- Settles O39: 28 bus calls, the fifteen of one bank and the thirteen of the other, run straight to the Commit that
publishes sn_t and acc; acc starts from 0 (R100). -/
theorem snRdRunsBothBanks : Obligations.SnRdRunsBothBanks := by
  unfold Obligations.SnRdRunsBothBanks
  intro s w imm8 lines rest a0 a1 a2 a3 a4 a5 b0 b1 b2 b3 b4 b5 b6 b7 e0 g0 g1 g2 g3 g4 g5 c0 c1 c2 c3 c4 c5 e1
    hs hr hp hd hm
  have hrun := run_command (ms := snBank1 ++ snBank2) hs hr hp hd hm rfl rfl rfl
  refine hrun.trans ((snRdCommitPublishesEightBytes imm8 _ (afterCalls_atMicro ..)).trans ?_)
  rw [afterCalls, receiveAll_snRd, hs, hr, ← BitVec.zero_or (x := respFlags s.params a1.resp)]
  rfl

end Sys2Proof.Machine

/-! # The whole run of SRST

The row of bus calls ends before the settle wait, which stands between it and the Commit (R190, R192). -/

namespace Sys2Proof.Machine

/-- `s` after the bus calls of an accepted SRST, as far as the registers go; acc starts from 0 (R100, R190). -/
def State.softReset (imm8 : Byte) (a1 a2 : BusAnswer) (s : State) : State := { s with
  lastOp := 0xFE, opnd := imm8, k := 0, ready := false,
  acc := respFlags s.params a1.resp ||| respFlags s.params a2.resp }

/-- What the bus calls of SRST leave in the trace (R117, R190). -/
def softResetEvents (a1 a2 : BusAnswer) : List BusEvent :=
  [.busBegin, .write 0x80 a1.resp, .write 0xFE a2.resp, .busEnd]

/-- What the answers of SRST's four calls leave in the working registers (R190). -/
theorem receiveAll_srst (a0 a1 a2 a3 : BusAnswer) (s : State) :
    receiveAll (srstListing.take 4) [a0, a1, a2, a3] s = { s with
      acc := s.acc ||| respFlags s.params a1.resp ||| respFlags s.params a2.resp } := by
  simp [srstListing, receiveAll, Micro.receive, State.accumulate]

/-- The bus calls of an accepted SRST leave it before the settle wait. -/
theorem afterCalls_srst (imm8 : Byte) (a0 a1 a2 a3 : BusAnswer) (rest : List Move) (s : State) :
    afterCalls .srst 0 (srstListing.take 4) [a0, a1, a2, a3] rest (accept (.srst imm8) s) =
      (s.softReset imm8 a1 a2).called .srst 4 a3 rest (softResetEvents a1 a2) := by
  rw [afterCalls, receiveAll_srst, State.softReset, ← BitVec.zero_or (x := respFlags s.params a1.resp)]
  rfl

/-- Settles O37: four bus calls run straight to the settle wait, whose completion leads to the Commit that publishes ERR
alone. -/
theorem srstRunsItsListing : Obligations.SrstRunsItsListing := by
  unfold Obligations.SrstRunsItsListing
  intro s w imm8 lines rest a0 a1 a2 a3 hs hr hp hd hm
  let u : State := { s with prog := lines, moves := s.moves.tail }
  have htail : s.moves.tail = callMoves [a0, a1, a2, a3] ++ .sequencer :: .timer :: .sequencer :: rest :=
    congrArg List.tail hm
  have hdelay : (listingOf .srst)[4]? = some (.delay .settleDelay 5) := rfl
  have hcommit : (listingOf .srst)[5]? = some (.commit .nothing) := rfl
  calc Sys2Proof.core.run 12 s
      = Sys2Proof.core.run (3 + 2 * 4) (accept (.srst imm8) u) :=
        run_issued hs hp hd (hm.trans (congrArg _ htail.symm)) _
    _ = Sys2Proof.core.run 3 ((u.softReset imm8 a1 a2).called .srst 4 a3 (.sequencer :: .timer :: .sequencer :: rest)
          (softResetEvents a1 a2)) :=
        (run_calls (s := accept (.srst imm8) u) (ms := srstListing.take 4) ⟨rfl, hr⟩ rfl rfl rfl htail 3).trans
          (congrArg _ (afterCalls_srst ..))
    _ = Sys2Proof.core.run 1 ((u.softReset imm8 a1 a2).called .srst 5 a3 (.sequencer :: rest)
          (softResetEvents a1 a2 ++ [BusEvent.delay .settleDelay])) :=
        (run_delay (State.called_atMicro ..) hdelay rfl 1).trans (congrArg _ (State.called_called ..))
    _ = .next (commit .nothing ((u.softReset imm8 a1 a2).called .srst 5 a3 rest
          (softResetEvents a1 a2 ++ [BusEvent.delay .settleDelay]))) :=
        run_commit (i := .srst imm8) (State.called_atMicro ..) hcommit rfl
    _ = _ := by
        rw [hs, hr]
        rfl

end Sys2Proof.Machine

/-! # Controller reset -/

namespace Sys2Proof.Machine

/-- The platform's reset move is enabled in every state: the step answers the controller reset, whatever the sequencer
does and whatever call is pending (R220, R221). -/
theorem step_reset {s : State} {rest : List Move} (hm : s.moves = .reset :: rest) :
    step s = .next (controllerReset { s with moves := rest }) :=
  have hreset : moveOf .reset { s with moves := rest } = .done (controllerReset { s with moves := rest }) := rfl
  step_done ((nextAction_cons hm).trans hreset)

/-- Settles O49: the reset move's step is `controllerReset`, which keeps of the state what is not the controller's and
sets the rest to the values of R43. -/
theorem controllerResetAbandonsTheOperation : Obligations.ControllerResetAbandonsTheOperation := by
  unfold Obligations.ControllerResetAbandonsTheOperation
  intro s rest hm
  rw [step_reset hm, controllerReset]

end Sys2Proof.Machine
